-- ==== Sys2Proof/Word.lean ====
section
/-!
DEFINITION. The word types of the DLE: the 32-bit sample, slot, operand and register word (R8), the 72-bit
command word (R81) and the 40-bit response word (R82).
-/

namespace Sys2Proof

/-- A sample, a buffer slot, an operand field or a register value: 32 bits (R8). It is read as an IEEE 754
binary32 bit pattern where arithmetic is done on it (R10, R115) and as an unsigned integer elsewhere. -/
abbrev Word := BitVec 32

/-- The word on the command port (R81). -/
abbrev CmdWord := BitVec 72

/-- The word on the response port (R82). -/
abbrev RspWord := BitVec 40

end Sys2Proof
end

