-- ==== Sys2Proof/Syntax.lean ====
section
/-!
DEFINITION. The commands of the DLE, one constructor per row of spec/opcode_table.json (R84), with operands that
are already named: buffers, CSRs, variants and flags, not field bits.
-/

namespace Sys2Proof

/-- The nine operation codes (R84). -/
inductive Op where
  | rbPush | rbGet | rbInit | fdlProc | fdlInit | modProc | modInit | csrRd | csrWr
  deriving DecidableEq, Repr

/-- The four ring buffers, in the order of their buffer numbers 0 to 3 (R20). -/
inductive Buffer where
  | rb0 | ih | oh | mh
  deriving DecidableEq, Repr

/-- The closed variant set, in the order of the variant numbers 0 to 2 (R24, R203). -/
inductive Variant where
  | vibrato | chorus | flanger
  deriving DecidableEq, Repr

/-- The sixteen control and status registers, in the order of their numbers 0 to 15 (R30). -/
inductive Csr where
  | cap | status | rbWidx | fdlDelay | fdlWet | fdlFb | fdlIhWidx | fdlOhWidx
  | modVariant | modRate | modDepth | modMix | modPhase | modWidx | logMin | logMax
  deriving DecidableEq, Repr

/-- The four fields of a command word (R81), before any of them is given a meaning. -/
structure Fields where
  op  : BitVec 4
  sel : BitVec 4
  a   : Word
  b   : Word
  deriving DecidableEq, Repr

/-- The commands: one constructor per row of spec/opcode_table.json. -/
inductive Instr where
  /-- RB.PUSH (R142): `value` is field a. -/
  | rbPush (value : Word)
  /-- RB.GET (R143): the buffer is field sel, `delay` is field b. -/
  | rbGet (buffer : Buffer) (delay : Word)
  /-- RB.INIT (R144). -/
  | rbInit
  /-- FDL.PROC (R161): `input` is field a. -/
  | fdlProc (input : Word)
  /-- FDL.INIT (R163): `delaySamples` is field b. -/
  | fdlInit (delaySamples : Word)
  /-- MOD.PROC (R181): `logging` is bit 0 of sel, `input` is field a, `sampleRate` is field b. -/
  | modProc (logging : Bool) (input sampleRate : Word)
  /-- MOD.INIT with sel = 0 (R202). -/
  | modInitVibrato
  /-- MOD.INIT with sel = 1 (R202). -/
  | modInitChorus
  /-- MOD.INIT with sel = 2 (R202). -/
  | modInitFlanger
  /-- CSR.RD (R220): the register is field sel. -/
  | csrRd (csr : Csr)
  /-- CSR.WR (R221): the register is field sel, `value` is field a. -/
  | csrWr (csr : Csr) (value : Word)
  deriving DecidableEq, Repr

end Sys2Proof
end

