-- ==== Sys2Proof/WellFormed.lean ====
section
/-!
DEFINITION. Which field values spell a command (R88), one named check each. The operands of `Instr` are typed, so
an `Instr` needs no check of its own: whatever is ill-formed is ill-formed as fields, and decode refuses it.
-/

namespace Sys2Proof

/-- R88 (a): `op` is 0 or 10 to 15. -/
def Fields.opReserved (f : Fields) : Bool := f.op.toNat = 0 || 10 ≤ f.op.toNat

/-- The largest legal `sel` of an operation code (R84, R88 (c)). -/
def Fields.selMax (f : Fields) : Nat :=
  match f.op.toNat with
  | 2 => 3        -- RB.GET: buffer number
  | 6 => 1        -- MOD.PROC: the log flag
  | 7 => 2        -- MOD.INIT: variant number
  | 8 => 15       -- CSR.RD: CSR number
  | 9 => 15       -- CSR.WR: CSR number
  | _ => 0

/-- R88 (b), (c): `sel` is within the range of its `op`. -/
def Fields.selLegal (f : Fields) : Bool := f.sel.toNat ≤ f.selMax

/-- R88 (b): `a` is zero where its `op` does not use it (RB.GET, RB.INIT, FDL.INIT, MOD.INIT, CSR.RD). -/
def Fields.aLegal (f : Fields) : Bool :=
  f.a = 0 || f.op.toNat = 1 || f.op.toNat = 4 || f.op.toNat = 6 || f.op.toNat = 9

/-- R88 (b): `b` is zero where its `op` does not use it (all but RB.GET, FDL.INIT, MOD.PROC). -/
def Fields.bLegal (f : Fields) : Bool :=
  f.b = 0 || f.op.toNat = 2 || f.op.toNat = 5 || f.op.toNat = 6

/-- The fields spell one of the nine commands: none of the cases of R88 holds. -/
def Fields.wellFormed (f : Fields) : Bool :=
  !f.opReserved && f.selLegal && f.aLegal && f.bLegal

end Sys2Proof
end

