-- ==== Sys2Proof/Decode.lean ====
section
/-!
DEFINITION. Decoding a 72-bit command word (R81, R84, R87, R88), total and by name; the encoder, written from the
same table; the match and mask rows of R85; and the host's entry `decodeTableWord`.
-/

namespace Sys2Proof

/-- Why a word is illegal (R88). The block itself records only that it was (R253). -/
inductive Illegal where
  /-- R88 (a): `op` is 0 or 10 to 15. -/
  | reservedOp
  /-- R88 (c): `sel` is out of range for its `op`. -/
  | selOutOfRange
  /-- R88 (b): field `a` must be zero and is not. -/
  | aNotZero
  /-- R88 (b): field `b` must be zero and is not. -/
  | bNotZero
  deriving DecidableEq, Repr

/-- The fields of a command word (R81). -/
def Fields.ofWord (w : CmdWord) : Fields where
  op  := w.extractLsb' 68 4
  sel := w.extractLsb' 64 4
  a   := w.extractLsb' 32 32
  b   := w.extractLsb' 0 32

/-- The command word with given fields (R81): `{op, sel, a, b}`. -/
def Fields.toWord (f : Fields) : CmdWord := f.op ++ f.sel ++ f.a ++ f.b

/-- The operation code map (R84); 0 and 10 to 15 are reserved. -/
def Op.ofBits (v : BitVec 4) : Option Op :=
  match v.toNat with
  | 1 => some .rbPush
  | 2 => some .rbGet
  | 3 => some .rbInit
  | 4 => some .fdlProc
  | 5 => some .fdlInit
  | 6 => some .modProc
  | 7 => some .modInit
  | 8 => some .csrRd
  | 9 => some .csrWr
  | _ => none

def Op.bits : Op → BitVec 4
  | .rbPush  => 1
  | .rbGet   => 2
  | .rbInit  => 3
  | .fdlProc => 4
  | .fdlInit => 5
  | .modProc => 6
  | .modInit => 7
  | .csrRd   => 8
  | .csrWr   => 9

/-- Buffer numbers (R20). -/
def Buffer.ofSel (v : BitVec 4) : Option Buffer :=
  match v.toNat with
  | 0 => some .rb0
  | 1 => some .ih
  | 2 => some .oh
  | 3 => some .mh
  | _ => none

def Buffer.sel : Buffer → BitVec 4
  | .rb0 => 0
  | .ih  => 1
  | .oh  => 2
  | .mh  => 3

/-- CSR numbers (R30): all sixteen are populated. -/
def Csr.ofSel (v : BitVec 4) : Csr :=
  match v.toNat with
  | 0  => .cap
  | 1  => .status
  | 2  => .rbWidx
  | 3  => .fdlDelay
  | 4  => .fdlWet
  | 5  => .fdlFb
  | 6  => .fdlIhWidx
  | 7  => .fdlOhWidx
  | 8  => .modVariant
  | 9  => .modRate
  | 10 => .modDepth
  | 11 => .modMix
  | 12 => .modPhase
  | 13 => .modWidx
  | 14 => .logMin
  | _  => .logMax

def Csr.sel : Csr → BitVec 4
  | .cap        => 0
  | .status     => 1
  | .rbWidx     => 2
  | .fdlDelay   => 3
  | .fdlWet     => 4
  | .fdlFb      => 5
  | .fdlIhWidx  => 6
  | .fdlOhWidx  => 7
  | .modVariant => 8
  | .modRate    => 9
  | .modDepth   => 10
  | .modMix     => 11
  | .modPhase   => 12
  | .modWidx    => 13
  | .logMin     => 14
  | .logMax     => 15

/-- A must-be-zero check (R87 (2)). -/
def mustBeZero (v : Word) (why : Illegal) (k : Except Illegal Instr) : Except Illegal Instr :=
  if v = 0 then k else .error why

/-- The command that fields spell, or why they spell none (R87). -/
def decodeFields (f : Fields) : Except Illegal Instr :=
  match Op.ofBits f.op with
  | none => .error .reservedOp
  | some .rbPush =>
    if f.sel = 0 then mustBeZero f.b .bNotZero (.ok (.rbPush f.a)) else .error .selOutOfRange
  | some .rbGet =>
    match Buffer.ofSel f.sel with
    | some buf => mustBeZero f.a .aNotZero (.ok (.rbGet buf f.b))
    | none => .error .selOutOfRange
  | some .rbInit =>
    if f.sel = 0 then mustBeZero f.a .aNotZero (mustBeZero f.b .bNotZero (.ok .rbInit))
    else .error .selOutOfRange
  | some .fdlProc =>
    if f.sel = 0 then mustBeZero f.b .bNotZero (.ok (.fdlProc f.a)) else .error .selOutOfRange
  | some .fdlInit =>
    if f.sel = 0 then mustBeZero f.a .aNotZero (.ok (.fdlInit f.b)) else .error .selOutOfRange
  | some .modProc =>
    if f.sel = 0 then .ok (.modProc false f.a f.b)
    else if f.sel = 1 then .ok (.modProc true f.a f.b)
    else .error .selOutOfRange
  | some .modInit =>
    if f.sel = 0 then mustBeZero f.a .aNotZero (mustBeZero f.b .bNotZero (.ok .modInitVibrato))
    else if f.sel = 1 then mustBeZero f.a .aNotZero (mustBeZero f.b .bNotZero (.ok .modInitChorus))
    else if f.sel = 2 then mustBeZero f.a .aNotZero (mustBeZero f.b .bNotZero (.ok .modInitFlanger))
    else .error .selOutOfRange
  | some .csrRd =>
    mustBeZero f.a .aNotZero (mustBeZero f.b .bNotZero (.ok (.csrRd (Csr.ofSel f.sel))))
  | some .csrWr => mustBeZero f.b .bNotZero (.ok (.csrWr (Csr.ofSel f.sel) f.a))

/-- Decoding is total and reads no state (R87). -/
def decode (w : CmdWord) : Except Illegal Instr := decodeFields (Fields.ofWord w)

/-- The fields of a command, must-be-zero fields zero (R84, R91). -/
def Instr.fields : Instr → Fields
  | .rbPush v            => ⟨Op.rbPush.bits, 0, v, 0⟩
  | .rbGet buf d         => ⟨Op.rbGet.bits, buf.sel, 0, d⟩
  | .rbInit              => ⟨Op.rbInit.bits, 0, 0, 0⟩
  | .fdlProc x           => ⟨Op.fdlProc.bits, 0, x, 0⟩
  | .fdlInit d           => ⟨Op.fdlInit.bits, 0, 0, d⟩
  | .modProc false x sr  => ⟨Op.modProc.bits, 0, x, sr⟩
  | .modProc true x sr   => ⟨Op.modProc.bits, 1, x, sr⟩
  | .modInitVibrato      => ⟨Op.modInit.bits, 0, 0, 0⟩
  | .modInitChorus       => ⟨Op.modInit.bits, 1, 0, 0⟩
  | .modInitFlanger      => ⟨Op.modInit.bits, 2, 0, 0⟩
  | .csrRd c             => ⟨Op.csrRd.bits, c.sel, 0, 0⟩
  | .csrWr c v           => ⟨Op.csrWr.bits, c.sel, v, 0⟩

/-- The command word of a command. -/
def encode (i : Instr) : CmdWord := i.fields.toWord

/-- One row of the match and mask table (R85). -/
structure Pattern where
  mask  : CmdWord
  value : CmdWord
  deriving DecidableEq, Repr

/-- The word spells the row's command iff its masked bits are the row's (R85). -/
def Pattern.accepts (p : Pattern) (w : CmdWord) : Bool := w &&& p.mask = p.value

/-- The rows of R85, in the table's order. -/
def patterns : List Pattern :=
  [ ⟨0xFF00000000FFFFFFFF, 0x100000000000000000⟩    -- RB.PUSH
  , ⟨0xFCFFFFFFFF00000000, 0x200000000000000000⟩    -- RB.GET
  , ⟨0xFFFFFFFFFFFFFFFFFF, 0x300000000000000000⟩    -- RB.INIT
  , ⟨0xFF00000000FFFFFFFF, 0x400000000000000000⟩    -- FDL.PROC
  , ⟨0xFFFFFFFFFF00000000, 0x500000000000000000⟩    -- FDL.INIT
  , ⟨0xFE0000000000000000, 0x600000000000000000⟩    -- MOD.PROC
  , ⟨0xFFFFFFFFFFFFFFFFFF, 0x700000000000000000⟩    -- MOD.INIT (Vibrato)
  , ⟨0xFFFFFFFFFFFFFFFFFF, 0x710000000000000000⟩    -- MOD.INIT (Chorus)
  , ⟨0xFFFFFFFFFFFFFFFFFF, 0x720000000000000000⟩    -- MOD.INIT (Flanger)
  , ⟨0xF0FFFFFFFFFFFFFFFF, 0x800000000000000000⟩    -- CSR.RD
  , ⟨0xF000000000FFFFFFFF, 0x900000000000000000⟩ ]  -- CSR.WR

/-- The row of `patterns` that stands for a command (R85). -/
def Instr.row : Instr → Nat
  | .rbPush _       => 0
  | .rbGet _ _      => 1
  | .rbInit         => 2
  | .fdlProc _      => 3
  | .fdlInit _      => 4
  | .modProc _ _ _  => 5
  | .modInitVibrato => 6
  | .modInitChorus  => 7
  | .modInitFlanger => 8
  | .csrRd _        => 9
  | .csrWr _ _      => 10

/-- The command word whose low `nbits` bits are `w`, in the opcode table's numbering: a command is one 72-bit
word, bit 0 its least significant (R81); bits above `nbits` are 0. -/
def tableWord (nbits w : Nat) : CmdWord := BitVec.ofNat 72 (w % 2 ^ nbits)

/-- The instruction the decoder reads from a word given in the opcode table's numbering. -/
def decodeTableWord (nbits w : Nat) : Option Instr :=
  match decode (tableWord nbits w) with
  | .ok i => some i
  | .error _ => none

end Sys2Proof
end

