-- ==== Sys2Proof/Config.lean ====
section
/-!
DEFINITION. What a build of the DLE fixes and the spec leaves open: the capacity exponents (R7) and the sine
function (R9, R126). The constants have no body, so nothing in Lean knows a value of them.
-/

namespace Sys2Proof

/-- The capacity exponents of one build (R7). The types hold exactly the legal ranges: `K_RB` and `K_FDL`
from 0 to 31, `K_MOD` from 2 to 24 (held as `K_MOD - 2`). A capacity is `2^K` by construction, so the source's
undefined case, a capacity that is no power of two, does not exist (R146). -/
structure Build where
  kRb       : Fin 32
  kFdl      : Fin 32
  kModLess2 : Fin 23
  deriving DecidableEq, Repr, Inhabited

/-- `K_MOD`, from 2 to 24 (R7). -/
def Build.kMod (b : Build) : Nat := b.kModLess2.val + 2

/-- DESIGN CHOICE (log entry 1), safe: the spec leaves the three exponents open (R7, 93 U2). This is the build
of the block whose reset state is `State.reset`. No value of it can be proved. -/
opaque Config.build : Build

/-- DESIGN CHOICE (log entry 4), safe: the build's sine as a raw function (R9, R126, 93 U3). The machine reads
it only through `Machine.SIN`, which has the properties S1 to S4 whatever this function is. No value of it can
be proved. -/
opaque Config.sinRaw : Word → Word

end Sys2Proof
end

