-- ==== Sys2Proof/Machine/Constants.lean ====
section
/-!
DEFINITION. The named binary32 constants (R116, R118) and the variants' presets (R187).
-/

namespace Sys2Proof.Machine

def ZERO      : Word := 0x00000000
def ONE       : Word := 0x3F800000
def TWO_PI    : Word := 0x40C90FDB
def C_CHORUS  : Word := 0x3CA3D70A
def C_FLANGER : Word := 0x3A83126F
def THOUSAND  : Word := 0x447A0000
def VIB_RATE  : Word := 0x40A00000
def VIB_DEPTH : Word := 0x41200000
def VIB_MIX   : Word := 0x3F800000
def CHO_RATE  : Word := 0x3F4CCCCD
def CHO_DEPTH : Word := 0x42C00000
def CHO_MIX   : Word := 0x3F000000
def FLA_RATE  : Word := 0x3E4CCCCD
def FLA_DEPTH : Word := 0x42400000
def FLA_MIX   : Word := 0x3F000000

/-- `-0`, the binary32 zero with its sign bit set (R117). -/
def NEG_ZERO : Word := 0x80000000

/-- The canonical quiet NaN (R118). -/
def NAN : Word := 0x7FC00000

/-- The preset RATE of a variant (R187). -/
def presetRate : Variant → Word
  | .vibrato => VIB_RATE
  | .chorus  => CHO_RATE
  | .flanger => FLA_RATE

/-- The preset DEPTH of a variant (R187). -/
def presetDepth : Variant → Word
  | .vibrato => VIB_DEPTH
  | .chorus  => CHO_DEPTH
  | .flanger => FLA_DEPTH

/-- The preset MIX of a variant (R187). -/
def presetMix : Variant → Word
  | .vibrato => VIB_MIX
  | .chorus  => CHO_MIX
  | .flanger => FLA_MIX

end Sys2Proof.Machine
end

