-- ==== Sys2Proof/Machine/Numerics.lean ====
section
/-!
DEFINITION. The binary32 primitives of 40_numerics (R115 to R126). Operands become exact integers or quotients,
the operation is done exactly, and one function rounds (R117, R119). A finite value is counted in units of
2^-149, the smallest positive subnormal, so every finite value is a whole number of units.
-/

namespace Sys2Proof.Machine

/-! ### The format (R115) -/

/-- The sign bit, `x[31]`. -/
def signBit (x : Word) : Bool := x.msb

/-- The biased exponent, `x[30:23]`. -/
def expField (x : Word) : Nat := (x.extractLsb' 23 8).toNat

/-- The fraction, `x[22:0]`. -/
def fracField (x : Word) : Nat := (x.extractLsb' 0 23).toNat

/-- The 31 bits below the sign, `x[30:0]`, as a number: the order of magnitudes is the order of these. -/
def magField (x : Word) : Nat := (x.extractLsb' 0 31).toNat

def isNaN (x : Word) : Bool := expField x = 255 && fracField x ≠ 0

def isInf (x : Word) : Bool := expField x = 255 && fracField x = 0

/-- Either zero. -/
def isZero (x : Word) : Bool := magField x = 0

/-- R122: neither an infinity nor a NaN. -/
def isFinite (x : Word) : Bool := expField x ≠ 255

/-- The magnitude of a finite value in units of 2^-149: `f` for a zero or a subnormal, `(2^23 + f) * 2^(e - 1)`
for a normal (R115). -/
def magUnits (x : Word) : Nat :=
  if expField x = 0 then fracField x else (2 ^ 23 + fracField x) * 2 ^ (expField x - 1)

/-- A finite value in units of 2^-149. -/
def units (x : Word) : Int := if signBit x then -(magUnits x : Int) else magUnits x

/-- The pattern with a given sign and a given number in its low 31 bits. -/
def pack (neg : Bool) (mag : Nat) : Word := BitVec.ofBool neg ++ BitVec.ofNat 31 mag

/-- The infinity of a given sign. -/
def infinity (neg : Bool) : Word := pack neg 0x7F800000

/-! ### Rounding (R117) -/

/-- `num / den` rounded to an integer, nearest, ties to even. -/
def roundDiv (num den : Nat) : Nat :=
  let q := num / den
  let r := num % den
  if den < 2 * r then q + 1
  else if 2 * r = den then q + q % 2
  else q

/-- How many binary places the last place of a result lies above 2^-149, for a magnitude whose integer part is
`q` units: 0 while 24 bits hold it (subnormals and the lowest binade), else what leaves 24 bits. -/
def ulpShift (q : Nat) : Nat := Nat.log2 q - 23

/-- The low 31 bits of the binary32 nearest to `num / den` units of 2^-149, ties to even, with gradual underflow
and overflow to infinity (R117). A significand `m` of `2^23` to `2^24` with last place `2^k` units has the
pattern `k * 2^23 + m`; the carry of `m = 2^24` into the exponent comes out of the same sum. -/
def roundMag (num den : Nat) : Nat :=
  let k := ulpShift (num / den)
  min (k * 2 ^ 23 + roundDiv num (den * 2 ^ k)) 0x7F800000

/-! ### The four operations (R117, R118) -/

def fadd (x y : Word) : Word :=
  if isNaN x || isNaN y then NAN
  else if isInf x then
    if isInf y && signBit x != signBit y then NAN else x
  else if isInf y then y
  else
    let z := units x + units y
    if z = 0 then
      if signBit x && signBit y then NEG_ZERO else ZERO
    else pack (decide (z < 0)) (roundMag z.natAbs 1)

/-- The operand with its sign bit flipped (R117). -/
def fneg (x : Word) : Word := x ^^^ NEG_ZERO

def fsub (x y : Word) : Word := fadd x (fneg y)

/-- The sign of a product or quotient (R117). -/
def xorSign (x y : Word) : Bool := signBit x != signBit y

def fmul (x y : Word) : Word :=
  if isNaN x || isNaN y then NAN
  else if isInf x || isInf y then
    if isZero x || isZero y then NAN else infinity (xorSign x y)
  else pack (xorSign x y) (roundMag (magUnits x * magUnits y) (2 ^ 149))

def fdiv (x y : Word) : Word :=
  if isNaN x || isNaN y then NAN
  else if isInf x then
    if isInf y then NAN else infinity (xorSign x y)
  else if isInf y then pack (xorSign x y) 0
  else if isZero y then
    if isZero x then NAN else infinity (xorSign x y)
  else pack (xorSign x y) (roundMag (magUnits x * 2 ^ 149) (magUnits y))

/-! ### Comparison, selection, conversion (R121, R123, R124, R125) -/

/-- An integer whose order is the order of the non-NaN values, `-0` and `+0` equal, the infinities outermost. -/
def orderKey (x : Word) : Int := if signBit x then -(magField x : Int) else magField x

def flt (x y : Word) : Bool := !isNaN x && !isNaN y && decide (orderKey x < orderKey y)
def fle (x y : Word) : Bool := !isNaN x && !isNaN y && decide (orderKey x ≤ orderKey y)
def fgt (x y : Word) : Bool := flt y x
def fge (x y : Word) : Bool := fle y x

def fminSel (x y : Word) : Word := if flt y x then y else x
def fmaxSel (x y : Word) : Word := if flt x y then y else x

/-- An unsigned integer as binary32, nearest, ties to even (R124). -/
def u2f (u : Word) : Word := pack false (roundMag (u.toNat * 2 ^ 149) 1)

/-- The largest integer not above `x`, for `1 <= x <= 2^24` (R125). DESIGN CHOICE (log entry 5), safe: outside
that domain the spec allows any value and no command reaches it; this is then the integer part of the
magnitude, modulo 2^32. -/
def floorU (x : Word) : Word := BitVec.ofNat 32 (magUnits x / 2 ^ 149)

/-! ### The sine (R126) -/

/-- `r` if it is not a NaN and lies in `[-1, 1]`, else `+0`: the identity on every value S2 allows. -/
def unitRange (r : Word) : Word := if !isNaN r && magField r ≤ magField ONE then r else ZERO

/-- A sine made from a raw function (R126): a function of the operand's 32 bits (S1), in `[-1, 1]` on finite
operands (S2), the canonical NaN on the others (S3), `+0` at `+0` (S4), and otherwise what `raw` gives. A function
that has S2 to S4 already is unchanged by it, so every sine the spec allows is `sineFrom` of some raw function. -/
def sineFrom (raw : Word → Word) (x : Word) : Word :=
  if !isFinite x then NAN
  else if x = ZERO then ZERO
  else unitRange (raw x)

/-- `SIN` (R9, R126): the build's sine. DESIGN CHOICE (log entry 4), safe: nothing but S1 to S4 is known of it. -/
def SIN (x : Word) : Word := sineFrom Config.sinRaw x

end Sys2Proof.Machine
end

