-- ==== Sys2Proof/Machine/State.lean ====
section
/-!
DEFINITION. The whole state of one DLE block (10_state R20 to R46), the host's side of its ports (R6, R80, R83),
the reset state (R43, R290), and the reasons a step could stop.
-/

namespace Sys2Proof.Machine

/-- Why a step stops with a fault: never. No command, legal or not, from any state, hangs or stops the block
(R266); an error is a response code and a sticky flag (R252), that is a next state. The type is empty: nobody
raises a fault, which is exact. -/
inductive Fault where
  deriving DecidableEq, Repr

/-- Why a step has no meaning. -/
inductive Refusal where
  /-- An instruction whose meaning is not written. Nobody raises it: every instruction has its meaning. It would
  be safe: the model would stop where the hardware goes on. -/
  | notModelled (mnemonic : String)
  deriving DecidableEq, Repr

/-- The storage of one ring buffer (R21, R60 (a)): the slots that hold a value other than the zero of the
zero-fill (R43), as (slot index, 32-bit word), indices strictly rising. A slot is the smallest unit the spec
addresses (R62, R63). An unlisted slot reads `0x00000000`. -/
abbrev Memory := List (Nat × Word)

/-- The canonical form of a memory: indices strictly rising, no entry equal to what an unlisted slot reads as. -/
def Memory.wf : Memory → Bool
  | [] => true
  | [c] => c.2 ≠ 0
  | c :: d :: m => decide (c.2 ≠ 0) && decide (c.1 < d.1) && Memory.wf (d :: m)

/-- One ring buffer (R21): its slots and `widx`, the next slot to write, zero-extended to 32 bits. -/
structure RingBuf where
  mem  : Memory
  widx : Word
  deriving DecidableEq, Repr

/-- A zero-filled buffer with write index 0 (R43). -/
def RingBuf.empty : RingBuf := ⟨[], 0⟩

/-- Unit FDL (R23): the input and output histories, DELAY, WET, FB. -/
structure FdlUnit where
  ih    : RingBuf
  oh    : RingBuf
  delay : Word
  wet   : Word
  fb    : Word
  deriving DecidableEq, Repr

/-- Unit MOD (R24, R25): the input history, the variant, RATE, DEPTH, MIX, PHASE, and the one-shot log state. -/
structure ModUnit where
  mh        : RingBuf
  variant   : Variant
  rate      : Word
  depth     : Word
  mix       : Word
  phase     : Word
  firstDone : Bool
  logged    : Bool
  logMin    : Word
  logMax    : Word
  deriving DecidableEq, Repr

/-- The error codes a command can end with (R250). -/
inductive ErrCode where
  | illegal | delay | nonfinite | range | srate | ro
  deriving DecidableEq, Repr

/-- The six sticky error flags `ERR[1]` to `ERR[6]` (R28, R32), in the order of the codes. -/
structure ErrFlags where
  illegal   : Bool
  delay     : Bool
  nonfinite : Bool
  range     : Bool
  srate     : Bool
  ro        : Bool
  deriving DecidableEq, Repr

/-- The three things the host can do to the block (R6). -/
inductive HostEvent where
  /-- Present a command word, which the block accepts (R80, R83). -/
  | present (w : CmdWord)
  /-- Accept a response word: the oldest one not yet delivered (R80, R83). -/
  | acceptResponse
  /-- Assert reset for one clock edge (R83 (e), R290). -/
  | assertReset
  deriving DecidableEq, Repr

/-- The state. `build` is constant (R29); `inputs`, `responses` and `delivered` are the two ports seen as lists
(log entry 3); everything else is the architectural state of 10_state. -/
structure State where
  /-- The build's capacities (R7), constant over every run. -/
  build     : Build
  /-- Unit RB0: ring buffer RB0 (R20, R26). -/
  rb        : RingBuf
  /-- Unit FDL (R23). -/
  fdl       : FdlUnit
  /-- Unit MOD (R24, R25). -/
  mod       : ModUnit
  /-- The sticky error flags of STATUS (R32). -/
  err       : ErrFlags
  /-- What the host will do next, first to last (R6, R309). -/
  inputs    : List HostEvent
  /-- Response words formed and not yet delivered, oldest first (R83). -/
  responses : List RspWord
  /-- Response words the host has accepted, in order (R83, R309). -/
  delivered : List RspWord
  deriving DecidableEq, Repr

/-- The FDL's reset state with a delay length (R43, R163). -/
def FdlUnit.initial (delay : Word) : FdlUnit := ⟨RingBuf.empty, RingBuf.empty, delay, ZERO, ZERO⟩

/-- The MOD's state when it is constructed as a variant (R43, R187, R202). -/
def ModUnit.initial (v : Variant) : ModUnit where
  mh        := RingBuf.empty
  variant   := v
  rate      := presetRate v
  depth     := presetDepth v
  mix       := presetMix v
  phase     := ZERO
  firstDone := false
  logged    := false
  logMin    := ZERO
  logMax    := ZERO

/-- No sticky flag set (R43). -/
def ErrFlags.clear : ErrFlags := ⟨false, false, false, false, false, false⟩

/-- The machine of a given build right after reset (R43, R290), with no host event waiting. -/
def State.resetOf (b : Build) : State where
  build     := b
  rb        := RingBuf.empty
  fdl       := FdlUnit.initial 0
  mod       := ModUnit.initial .vibrato
  err       := ErrFlags.clear
  inputs    := []
  responses := []
  delivered := []

/-- The machine right after reset: the reset state of the build the spec leaves open. -/
def State.reset : State := State.resetOf Config.build

end Sys2Proof.Machine
end

