-- ==== Sys2Proof/Machine/Flags.lean ====
section
/-!
DEFINITION. The error codes, the sticky flags and the words made of flags: STATUS (R32), CAP (R31), the response
word (R82).
-/

namespace Sys2Proof.Machine

/-- The number of an error code (R250). -/
def ErrCode.code : ErrCode → BitVec 4
  | .illegal   => 1
  | .delay     => 2
  | .nonfinite => 3
  | .range     => 4
  | .srate     => 5
  | .ro        => 6

/-- The flags with the sticky flag of one code set (R252 (a)). -/
def ErrFlags.set (f : ErrFlags) : ErrCode → ErrFlags
  | .illegal   => { f with illegal := true }
  | .delay     => { f with delay := true }
  | .nonfinite => { f with nonfinite := true }
  | .range     => { f with range := true }
  | .srate     => { f with srate := true }
  | .ro        => { f with ro := true }

/-- The sticky flag of a code. -/
def ErrFlags.get (f : ErrFlags) : ErrCode → Bool
  | .illegal   => f.illegal
  | .delay     => f.delay
  | .nonfinite => f.nonfinite
  | .range     => f.range
  | .srate     => f.srate
  | .ro        => f.ro

/-- One flag as a field of a word. -/
def flagBit (b : Bool) : BitVec 1 := BitVec.ofBool b

/-- CSR STATUS (R32): bits 1 to 6 the sticky flags, bit 8 FIRST_DONE, bit 9 LOGGED, the others zero. -/
def statusWord (f : ErrFlags) (firstDone logged : Bool) : Word :=
  0#22 ++ flagBit logged ++ flagBit firstDone ++ 0#1 ++ flagBit f.ro ++ flagBit f.srate ++ flagBit f.range
    ++ flagBit f.nonfinite ++ flagBit f.delay ++ flagBit f.illegal ++ 0#1

/-- CSR CAP (R31): the interface version 1 in bits 31:24, and the three exponents in bits 20:16, 12:8, 4:0. -/
def capWord (b : Build) : Word :=
  1#8 ++ 0#3 ++ BitVec.ofNat 5 b.kMod ++ 0#3 ++ BitVec.ofNat 5 b.kFdl.val ++ 0#3 ++ BitVec.ofNat 5 b.kRb.val

/-- The response word (R82): `{err, 000, log, data}`. -/
def responseWord (err : BitVec 4) (log : Bool) (data : Word) : RspWord := err ++ 0#3 ++ flagBit log ++ data

end Sys2Proof.Machine
end

