-- ==== Sys2Proof/Machine/Ops.lean ====
section
/-!
DEFINITION. The named operations every command is written with: a buffer's slots, the index arithmetic (R110),
`rb_push` and `rb_get` (R140, R141), the parts of the state, and the two ways a command ends, `respond` and `raise`
(R11, R82, R252). `raise` is the block's whole exception entry; there is no return from it (R263, R264).
-/

namespace Sys2Proof.Machine

/-! ### Slots -/

/-- The word in a slot; an unlisted slot holds zero (R43). -/
def Memory.read : Memory → Nat → Word
  | [], _ => 0
  | c :: m, i => if c.1 = i then c.2 else Memory.read m i

/-- The memory with a slot's entry taken out: the slot then holds zero. -/
def Memory.erase : Memory → Nat → Memory
  | [], _ => []
  | c :: m, i => if c.1 = i then Memory.erase m i else c :: Memory.erase m i

/-- An entry put in its place by index. -/
def Memory.insert : Memory → Nat → Word → Memory
  | [], i, v => [(i, v)]
  | c :: m, i, v => if i < c.1 then (i, v) :: c :: m else c :: Memory.insert m i v

/-- A slot written, canonical form kept: a zero is not listed. -/
def Memory.write (m : Memory) (i : Nat) (v : Word) : Memory :=
  if v = 0 then m.erase i else (m.erase i).insert i v

/-! ### Index arithmetic on a buffer of exponent `k` (R110) -/

/-- `m = 2^k - 1`. -/
def idxMask (k : Nat) : Word := BitVec.ofNat 32 (2 ^ k - 1)

/-- `(i + 1) & m`. -/
def idxSucc (k : Nat) (i : Word) : Word := (i + 1) &&& idxMask k

/-- `d & m`. -/
def idxReduce (k : Nat) (d : Word) : Word := d &&& idxMask k

/-- `(i - j) & m`. -/
def idxSub (k : Nat) (i j : Word) : Word := (i - j) &&& idxMask k

/-! ### The ring buffer primitives (R140, R141) -/

/-- `rb_push(b, v)` on a buffer of exponent `k`: writes the slot at `widx`, then advances `widx` (R140). -/
def RingBuf.push (k : Nat) (b : RingBuf) (v : Word) : RingBuf where
  mem  := b.mem.write b.widx.toNat v
  widx := idxSucc k b.widx

/-- The slot a delay addresses: `(widx - (d & m)) & m` (R61, R141). -/
def RingBuf.slotOf (k : Nat) (b : RingBuf) (d : Word) : Word := idxSub k b.widx (idxReduce k d)

/-- `rb_get(b, d)` on a buffer of exponent `k`: changes nothing (R141). -/
def RingBuf.get (k : Nat) (b : RingBuf) (d : Word) : Word := b.mem.read (b.slotOf k d).toNat

/-- Zero-fill: every slot zero, `widx` 0 (R144, R163, R202). -/
def RingBuf.zeroFilled : RingBuf where
  mem  := []
  widx := 0

/-! ### The parts of the state -/

def State.setRb (s : State) (b : RingBuf) : State := { s with rb := b }
def State.setFdl (s : State) (u : FdlUnit) : State := { s with fdl := u }
def State.setMod (s : State) (u : ModUnit) : State := { s with mod := u }

/-! ### How a command ends -/

/-- A formed response word waits on the response port behind the earlier ones (R83 (a)). -/
def State.answer (s : State) (r : RspWord) : State := { s with responses := s.responses ++ [r] }

/-- `respond(data, log)`: the command ends normally, with error code 0 (R11, R82). -/
def State.respond (s : State) (data : Word) (log : Bool) : State := s.answer (responseWord 0 log data)

/-- `raise E_X`: the command ends with an error code. Nothing changes but the code's sticky flag, and the response
is `X000000000` (R252). -/
def State.raise (s : State) (e : ErrCode) : State :=
  { s with err := s.err.set e }.answer (responseWord e.code false 0)

end Sys2Proof.Machine
end

