-- ==== Sys2Proof/Machine/Operands.lean ====
section
/-!
DEFINITION. Operand forms that name state: a buffer of RB.GET (R20, R143), a register of CSR.RD and CSR.WR (R30 to
R41), and the checks on a value offered to a register (R223 to R228).
-/

namespace Sys2Proof.Machine

/-- The buffer with a buffer number (R20). -/
def State.buffer (s : State) : Buffer → RingBuf
  | .rb0 => s.rb
  | .ih  => s.fdl.ih
  | .oh  => s.fdl.oh
  | .mh  => s.mod.mh

/-- `K(b)`, the exponent of a buffer's capacity (R20). -/
def bufferExp (b : Build) : Buffer → Nat
  | .rb0 => b.kRb.val
  | .ih  => b.kFdl.val
  | .oh  => b.kFdl.val
  | .mh  => b.kMod

/-- The number of a variant (R24, R36). -/
def variantWord : Variant → Word
  | .vibrato => 0
  | .chorus  => 1
  | .flanger => 2

/-- `csr[i]`: the value a register reads as (R30 to R41). -/
def State.csr (s : State) : Csr → Word
  | .cap        => capWord s.build
  | .status     => statusWord s.err s.mod.firstDone s.mod.logged
  | .rbWidx     => s.rb.widx
  | .fdlDelay   => s.fdl.delay
  | .fdlWet     => s.fdl.wet
  | .fdlFb      => s.fdl.fb
  | .fdlIhWidx  => s.fdl.ih.widx
  | .fdlOhWidx  => s.fdl.oh.widx
  | .modVariant => variantWord s.mod.variant
  | .modRate    => s.mod.rate
  | .modDepth   => s.mod.depth
  | .modMix     => s.mod.mix
  | .modPhase   => s.mod.phase
  | .modWidx    => s.mod.mh.widx
  | .logMin     => s.mod.logMin
  | .logMax     => s.mod.logMax

/-- Why a value offered as the FDL's delay length is refused, if it is: not below `N_FDL = 2^K_FDL` (R7, R164). -/
def delayError (s : State) (v : Word) : Option ErrCode :=
  if 2 ^ s.build.kFdl.val ≤ v.toNat then some .delay else none

/-- The two checks on a MOD parameter, in their order: finite, then inside its domain (R224). -/
def parameterError (v : Word) (inDomain : Bool) : Option ErrCode :=
  if !isFinite v then some .nonfinite
  else if !inDomain then some .range
  else none

/-- R225. -/
def rateError (v : Word) : Option ErrCode := parameterError v (fgt v ZERO)

/-- R226. -/
def depthError (v : Word) : Option ErrCode := parameterError v (fge v ZERO)

/-- R227. -/
def mixError (v : Word) : Option ErrCode := parameterError v (fge v ZERO && fle v ONE)

end Sys2Proof.Machine
end

