-- ==== Sys2Proof/Machine/Configuration.lean ====
section
/-!
DEFINITION. CSR.RD (R220) and CSR.WR (R221 to R228).
-/

namespace Sys2Proof.Machine

/-- Why a write of a value to a register is refused, if it is (R221 to R228): E_RO before any look at the value
(R262). -/
def writeError (s : State) (csr : Csr) (v : Word) : Option ErrCode :=
  match csr with
  | .fdlDelay => delayError s v
  | .fdlWet   => none
  | .fdlFb    => none
  | .modRate  => rateError v
  | .modDepth => depthError v
  | .modMix   => mixError v
  | .cap | .status | .rbWidx | .fdlIhWidx | .fdlOhWidx | .modVariant | .modPhase | .modWidx | .logMin
  | .logMax   => some .ro

/-- The state with an accepted value stored, bit for bit, in the named register and nothing else changed (R221,
R229). A read-only register is never stored to. -/
def storeCsr (s : State) (csr : Csr) (v : Word) : State :=
  match csr with
  | .fdlDelay => s.setFdl { s.fdl with delay := v }
  | .fdlWet   => s.setFdl { s.fdl with wet := v }
  | .fdlFb    => s.setFdl { s.fdl with fb := v }
  | .modRate  => s.setMod { s.mod with rate := v }
  | .modDepth => s.setMod { s.mod with depth := v }
  | .modMix   => s.setMod { s.mod with mix := v }
  | .cap | .status | .rbWidx | .fdlIhWidx | .fdlOhWidx | .modVariant | .modPhase | .modWidx | .logMin
  | .logMax   => s

/-- CSR.RD (R220): the response carries the register's value; no read has a side effect. -/
def execCsrRd (csr : Csr) (s : State) : Host.Outcome State Fault Refusal :=
  .next (s.respond (s.csr csr) false)

/-- CSR.WR (R221): the value is stored unchanged, or the command ends with an error and stores nothing. -/
def execCsrWr (csr : Csr) (value : Word) (s : State) : Host.Outcome State Fault Refusal :=
  .next (match writeError s csr value with
    | some e => s.raise e
    | none => (storeCsr s csr value).respond 0 false)

end Sys2Proof.Machine
end

