-- ==== Sys2Proof/Machine/Feedback.lean ====
section
/-!
DEFINITION. The feedback delay line: FDL.PROC (R161) and FDL.INIT (R163, R164).
-/

namespace Sys2Proof.Machine

/-- R161 step 4: `(1 - wet) * x + wet * di + fb * do`, left to right, each operation rounded by itself (R119). -/
def fdlOutput (wet fb x di dout : Word) : Word :=
  fadd (fadd (fmul (fsub ONE wet) x) (fmul wet di)) (fmul fb dout)

/-- What FDL.PROC answers for an input: both histories are read before either is pushed (R65, R161). -/
def FdlUnit.output (k : Nat) (u : FdlUnit) (x : Word) : Word :=
  fdlOutput u.wet u.fb x (u.ih.get k u.delay) (u.oh.get k u.delay)

/-- The unit after FDL.PROC: the input pushed into IH, the output into OH (R161 steps 3, 5). -/
def FdlUnit.process (k : Nat) (u : FdlUnit) (x : Word) : FdlUnit :=
  { u with ih := u.ih.push k x, oh := u.oh.push k (u.output k x) }

/-- The unit after an accepted FDL.INIT (R163). -/
def fdlConstruct (delay : Word) : FdlUnit where
  ih    := RingBuf.zeroFilled
  oh    := RingBuf.zeroFilled
  delay := delay
  wet   := ZERO
  fb    := ZERO

/-- FDL.PROC (R161): no execution error. -/
def execFdlProc (input : Word) (s : State) : Host.Outcome State Fault Refusal :=
  .next ((s.setFdl (s.fdl.process s.build.kFdl.val input)).respond (s.fdl.output s.build.kFdl.val input) false)

/-- FDL.INIT (R163): E_DELAY if the delay is not below the capacity (R164), else the unit is constructed. -/
def execFdlInit (delaySamples : Word) (s : State) : Host.Outcome State Fault Refusal :=
  .next (match delayError s delaySamples with
    | some e => s.raise e
    | none => (s.setFdl (fdlConstruct delaySamples)).respond 0 false)

end Sys2Proof.Machine
end

