-- ==== Sys2Proof/Machine/Modulation.lean ====
section
/-!
DEFINITION. The modulation engine: MOD.PROC step by step (R181 to R194, R200) and MOD.INIT (R202).
-/

namespace Sys2Proof.Machine

/-- Step 2, the increment (R184): `fdiv(fmul(TWO_PI, RATE), sr)`. -/
def phaseIncrement (rate sr : Word) : Word := fdiv (fmul TWO_PI rate) sr

/-- Step 2, the wrap (R184): one conditional subtraction. -/
def wrapPhase (p : Word) : Word := if fge p TWO_PI then fsub p TWO_PI else p

/-- Step 2: the phase after a command (R184). -/
def nextPhase (phase rate sr : Word) : Word := wrapPhase (fadd phase (phaseIncrement rate sr))

/-- Step 3: the base delay of a variant (R186). -/
def baseDelay (v : Variant) (depth sr : Word) : Word :=
  match v with
  | .vibrato => fadd depth ONE
  | .chorus  => fmul C_CHORUS sr
  | .flanger => fmul C_FLANGER sr

/-- Step 4: the instantaneous delay, from the base delay, the depth and the sine of the new phase (R188). -/
def instantDelay (base depth sine : Word) : Word := fadd base (fmul depth sine)

/-- `u2f(N_MOD - 2)` (R189). -/
def maxDelay (k : Nat) : Word := u2f (BitVec.ofNat 32 (2 ^ k - 2))

/-- Step 5: the clamp (R189). -/
def clampDelay (k : Nat) (d : Word) : Word := fmaxSel ONE (fminSel d (maxDelay k))

/-- Step 6: the fractional part (R190). -/
def fracPart (dly : Word) : Word := fsub dly (u2f (floorU dly))

/-- Step 7: linear interpolation (R193): `(1 - fr) * y0 + fr * y1`. -/
def interpolate (fr y0 y1 : Word) : Word := fadd (fmul (fsub ONE fr) y0) (fmul fr y1)

/-- Steps 6 and 7: the wet sample at a clamped delay (R190, R192, R193). -/
def wetSample (k : Nat) (mh : RingBuf) (dly : Word) : Word :=
  interpolate (fracPart dly) (mh.get k (floorU dly)) (mh.get k (floorU dly + 1))

/-- Step 8: the mix law (R194): `mix * wet + (1 - mix) * x`. -/
def mixLaw (mix wet x : Word) : Word := fadd (fmul mix wet) (fmul (fsub ONE mix) x)

/-- Step 9: one end of the logged range in milliseconds (R200): the sum or difference, over `sr`, times 1000. -/
def milliseconds (d sr : Word) : Word := fmul (fdiv d sr) THOUSAND

/-- Steps 3 to 5: the clamped delay of a command, given the sine function (R186, R188, R189). -/
def ModUnit.delayWith (sine : Word → Word) (k : Nat) (u : ModUnit) (sr : Word) : Word :=
  clampDelay k (instantDelay (baseDelay u.variant u.depth sr) u.depth (sine (nextPhase u.phase u.rate sr)))

/-- Steps 1 to 8: the sample MOD.PROC answers; the push comes before the reads (R183, R191). -/
def ModUnit.outputWith (sine : Word → Word) (k : Nat) (u : ModUnit) (x sr : Word) : Word :=
  mixLaw u.mix (wetSample k (u.mh.push k x) (u.delayWith sine k sr)) x

/-- Step 9: whether this command records the log: the first call, with the flag set (R200, R201). -/
def ModUnit.records (u : ModUnit) (logging : Bool) : Bool := !u.firstDone && logging

/-- The unit after MOD.PROC: MH pushed, PHASE advanced, the log state of the first call (R181). -/
def ModUnit.process (k : Nat) (u : ModUnit) (logging : Bool) (x sr : Word) : ModUnit :=
  { u with
    mh        := u.mh.push k x
    phase     := nextPhase u.phase u.rate sr
    firstDone := true
    logged    := u.logged || u.records logging
    logMin    := if u.records logging
                 then milliseconds (fsub (baseDelay u.variant u.depth sr) u.depth) sr else u.logMin
    logMax    := if u.records logging
                 then milliseconds (fadd (baseDelay u.variant u.depth sr) u.depth) sr else u.logMax }

/-- MOD.PROC (R181), given the sine function (R9): E_SRATE for a zero rate, before any state changes (R182). -/
def modProcWith (sine : Word → Word) (logging : Bool) (input sampleRate : Word) (s : State) : State :=
  if sampleRate = 0 then s.raise .srate
  else
    (s.setMod (s.mod.process s.build.kMod logging input (u2f sampleRate))).respond
      (s.mod.outputWith sine s.build.kMod input (u2f sampleRate)) (s.mod.records logging)

/-- MOD.PROC (R181) with the build's sine. -/
def execModProc (logging : Bool) (input sampleRate : Word) (s : State) : Host.Outcome State Fault Refusal :=
  .next (modProcWith SIN logging input sampleRate s)

/-- The unit after MOD.INIT (R202): zero-filled history, phase zero, the variant's presets, the log re-armed. -/
def modConstruct (v : Variant) : ModUnit where
  mh        := RingBuf.zeroFilled
  variant   := v
  rate      := presetRate v
  depth     := presetDepth v
  mix       := presetMix v
  phase     := ZERO
  firstDone := false
  logged    := false
  logMin    := ZERO
  logMax    := ZERO

/-- MOD.INIT as a variant (R202): touches the MOD unit only, no sticky flag. -/
def modInit (v : Variant) (s : State) : State := (s.setMod (modConstruct v)).respond 0 false

/-- MOD.INIT 0 (R202). -/
def execModInitVibrato (s : State) : Host.Outcome State Fault Refusal := .next (modInit .vibrato s)

/-- MOD.INIT 1 (R202). -/
def execModInitChorus (s : State) : Host.Outcome State Fault Refusal := .next (modInit .chorus s)

/-- MOD.INIT 2 (R202). -/
def execModInitFlanger (s : State) : Host.Outcome State Fault Refusal := .next (modInit .flanger s)

end Sys2Proof.Machine
end

