-- ==== Sys2Proof/Machine/RingCommands.lean ====
section
/-!
DEFINITION. RB.PUSH, RB.GET, RB.INIT (R142, R143, R144).
-/

namespace Sys2Proof.Machine

/-- RB.PUSH (R142): `rb_push(RB0, a)`; no failure mode. -/
def execRbPush (value : Word) (s : State) : Host.Outcome State Fault Refusal :=
  .next ((s.setRb (s.rb.push s.build.kRb.val value)).respond 0 false)

/-- RB.GET (R143): the response carries `rb_get(buf, b)`; any delay is legal and wraps silently (R147). -/
def execRbGet (buffer : Buffer) (delay : Word) (s : State) : Host.Outcome State Fault Refusal :=
  .next (s.respond ((s.buffer buffer).get (bufferExp s.build buffer) delay) false)

/-- RB.INIT (R144): RB0 zero-filled, its write index 0. -/
def execRbInit (s : State) : Host.Outcome State Fault Refusal :=
  .next ((s.setRb RingBuf.zeroFilled).respond 0 false)

end Sys2Proof.Machine
end

