-- ==== Sys2Proof/Machine/Dispatch.lean ====
section
/-!
DEFINITION. The dispatch of a command to its meaning, one arm per constructor.
-/

namespace Sys2Proof.Machine

def exec (i : Instr) (s : State) : Host.Outcome State Fault Refusal :=
  match i with
  | .rbPush value => Sys2Proof.Machine.execRbPush value s
  | .rbGet buffer delay => Sys2Proof.Machine.execRbGet buffer delay s
  | .rbInit => Sys2Proof.Machine.execRbInit s
  | .fdlProc input => Sys2Proof.Machine.execFdlProc input s
  | .fdlInit delaySamples => Sys2Proof.Machine.execFdlInit delaySamples s
  | .modProc logging input sampleRate => Sys2Proof.Machine.execModProc logging input sampleRate s
  | .modInitVibrato => Sys2Proof.Machine.execModInitVibrato s
  | .modInitChorus => Sys2Proof.Machine.execModInitChorus s
  | .modInitFlanger => Sys2Proof.Machine.execModInitFlanger s
  | .csrRd csr => Sys2Proof.Machine.execCsrRd csr s
  | .csrWr csr value => Sys2Proof.Machine.execCsrWr csr value s

end Sys2Proof.Machine
end

