-- ==== Sys2Proof/Machine/Port.lean ====
section
/-!
DEFINITION. The ports (R80, R83, R308): what the host does next, delivering a response, the reset pin (R290), and
placing a word as the next one the host presents.
-/

namespace Sys2Proof.Machine

/-- What the block finds on its ports. -/
inductive Fetched where
  /-- Nothing to do: the block is idle (R291). -/
  | idle
  /-- The host accepted a response or asserted reset; this is the state after it. -/
  | handled (s : State)
  /-- A command word was accepted; this is the state without it. -/
  | command (w : CmdWord) (s : State)
  deriving DecidableEq, Repr

/-- Delivery of the oldest waiting response (R83 (a)); with none waiting, `rsp_valid` is 0 and nothing happens. -/
def State.deliver (s : State) : State :=
  match s.responses with
  | [] => s
  | r :: rest => { s with responses := rest, delivered := s.delivered ++ [r] }

/-- One clock edge with `rst = 1` (R83 (e), R290): all architectural state takes its reset value and the
undelivered responses are dropped. The build stays, and so does what lies outside the block: the host's coming
events and the responses it already has. -/
def State.assertReset (s : State) : State :=
  { State.resetOf s.build with inputs := s.inputs, delivered := s.delivered }

/-- The host's next event, taken off the list (R6, R83). A presented word is always accepted (log entry 6). -/
def State.fetch (s : State) : Fetched :=
  match s.inputs with
  | [] => .idle
  | .present w :: rest => .command w { s with inputs := rest }
  | .acceptResponse :: rest => .handled ({ s with inputs := rest }.deliver)
  | .assertReset :: rest => .handled ({ s with inputs := rest }.assertReset)

/-- The state in which the host presents a word next. -/
def State.present (s : State) (w : CmdWord) : State := { s with inputs := .present w :: s.inputs }

end Sys2Proof.Machine
end

