-- ==== Sys2Proof/Machine/Step.lean ====
section
/-!
DEFINITION. One step of the machine: one host event (R5, R6, R83). A command word is decoded and performed whole; a
word that spells no command ends with E_ILLEGAL (R87, R253); with no event the block is idle (R291).
-/

namespace Sys2Proof.Machine

def step (s : State) : Host.Outcome State Fault Refusal :=
  match s.fetch with
  | .idle => .next s
  | .handled t => .next t
  | .command w t =>
    match decode w with
    | .ok i => exec i t
    | .error _ => .next (t.raise .illegal)

/-- The state in which the host presents, as its next event, the word given in the opcode table's numbering; the
host's later events stay behind it. The block loads and fetches nothing: commands come from the host (log entry 3). -/
def State.withFetchWord (s : State) (nbits w : Nat) : State := s.present (tableWord nbits w)

end Sys2Proof.Machine
end

