-- ==== Sys2Proof/Safety.lean ====
section
/-!
DEFINITION. The terms claims are stated in: the invariant of every reachable state (R45), the fields of a response
(R82), performing a list of commands, and the caller obligations (R300 to R305) as named premises.
-/

namespace Sys2Proof.Machine

/-! ### The invariant (R45) -/

/-- A buffer of capacity `2^k`: canonical storage, every index below the capacity (R21, R45 (a)). -/
abbrev RingBuf.wf (k : Nat) (b : RingBuf) : Prop :=
  b.mem.wf = true ∧ b.widx.toNat < 2 ^ k ∧ ∀ c ∈ b.mem, c.1 < 2 ^ k

/-- Unit FDL: R45 (a), (b), (c). -/
abbrev FdlUnit.Inv (k : Nat) (u : FdlUnit) : Prop :=
  u.ih.wf k ∧ u.oh.wf k ∧ u.ih.widx = u.oh.widx ∧ u.delay.toNat < 2 ^ k

/-- RATE, DEPTH and MIX are in their domains: R45 (d). -/
abbrev ModUnit.ParamsInv (u : ModUnit) : Prop :=
  (isFinite u.rate = true ∧ fgt u.rate ZERO = true) ∧
  (isFinite u.depth = true ∧ fge u.depth ZERO = true) ∧
  (isFinite u.mix = true ∧ fge u.mix ZERO = true ∧ fle u.mix ONE = true)

/-- Unit MOD: R45 (a), (d), (f); LOG_MIN and LOG_MAX read zero until logged (R41); PHASE is not a NaN and not
negative (R198). VARIANT is one of three by its type: R45 (e). -/
abbrev ModUnit.Inv (k : Nat) (u : ModUnit) : Prop :=
  u.mh.wf k ∧ u.ParamsInv ∧ (u.logged = true → u.firstDone = true) ∧
  (u.logged = false → u.logMin = ZERO ∧ u.logMax = ZERO) ∧ fge u.phase ZERO = true

/-- What holds in every reachable state (R45). -/
abbrev State.Inv (s : State) : Prop :=
  s.rb.wf s.build.kRb.val ∧ s.fdl.Inv s.build.kFdl.val ∧ s.mod.Inv s.build.kMod

/-! ### Responses (R82) -/

/-- The `err` field of a response word. -/
def errOf (r : RspWord) : BitVec 4 := r.extractLsb' 36 4

/-- The three bits of a response word that are always zero. -/
def padOf (r : RspWord) : BitVec 3 := r.extractLsb' 33 3

/-- The `log` bit of a response word. -/
def logOf (r : RspWord) : BitVec 1 := r.extractLsb' 32 1

/-- The `data` field of a response word. -/
def dataOf (r : RspWord) : Word := r.extractLsb' 0 32

/-- `t` is `s` with one more response formed, and the same build, coming events and delivered responses. -/
abbrev Answered (s t : State) (r : RspWord) : Prop :=
  t.responses = s.responses ++ [r] ∧ t.build = s.build ∧ t.inputs = s.inputs ∧ t.delivered = s.delivered

/-- A run is safe when no command of it erred: then no sticky flag is set at its end (R264). -/
abbrev State.noError (s : State) : Prop := s.err = ErrFlags.clear

/-! ### Performing commands -/

/-- The state after a command. -/
def perform (s : State) (i : Instr) : State :=
  match exec i s with
  | .next t => t
  | .fault _ => s
  | .refused _ => s

/-- The state after a list of commands, in order. -/
def performAll (s : State) (is : List Instr) : State := is.foldl perform s

/-- A sample `D` commands before command `n`, zero before the first (R162). -/
def past (zs : List Word) (n D : Nat) : Word := if D ≤ n then zs.getD (n - D) 0 else 0

/-- The FDL.PROC commands with inputs `xs`, performed in order from `s`, answer `ys` and nothing else. -/
abbrev FdlAnswers (s : State) (xs ys : List Word) : Prop :=
  (performAll s (xs.map Instr.fdlProc)).responses = s.responses ++ ys.map (responseWord 0 false) ∧
  ys.length = xs.length

/-- The recurrence of the feedback delay line with a delay of `D` samples (R162), each operation rounded as in R161. -/
abbrev FdlRecurrence (wet fb : Word) (D : Nat) (xs ys : List Word) : Prop :=
  ∀ n, n < xs.length →
    ys.getD n 0 =
      fadd (fadd (fmul (fsub ONE wet) (xs.getD n 0)) (fmul wet (past xs n D))) (fmul fb (past ys n D))

/-! ### Rounding (R117) -/

/-- Whether the low bit of a pattern's fraction is 0. -/
def evenFraction (x : Word) : Bool := x.getLsbD 0 = false

/-- `r` is the exact value `num / den` units of 2^-149 rounded to binary32, nearest, ties to even (R117): either no
finite value is nearer and a tie goes to the even fraction, or the magnitude is at least half a last place above the
largest finite value `(2^24 - 1) * 2^253` units and `r` is the infinity of the value's sign. -/
abbrev RoundsTo (num : Int) (den : Nat) (r : Word) : Prop :=
  (isFinite r = true ∧
    (∀ y, isFinite y = true →
      (num - units r * den).natAbs ≤ (num - units y * den).natAbs ∧
      ((num - units r * den).natAbs = (num - units y * den).natAbs → units y ≠ units r →
        evenFraction r = true)) ∧
    num.natAbs * 2 < (2 ^ 25 - 1) * 2 ^ 253 * den) ∨
  (isInf r = true ∧ signBit r = decide (num < 0) ∧ (2 ^ 25 - 1) * 2 ^ 253 * den ≤ num.natAbs * 2)

/-! ### Caller obligations, as premises (70_reset R300 to R305) -/

/-- R300: the delay of a raw read addresses history that is not aliased. -/
abbrev delayInHistory (k : Nat) (d : Word) : Prop := 1 ≤ d.toNat ∧ d.toNat ≤ 2 ^ k

/-- R304: the phase increment is below one turn. -/
abbrev incrementBelowTurn (rate sr : Word) : Prop := flt (phaseIncrement rate sr) TWO_PI = true

/-- R305: every slot of a buffer holds a finite sample. -/
abbrev RingBuf.allFinite (b : RingBuf) : Prop := ∀ n, isFinite (b.mem.read n) = true

/-- `0 <= PHASE < 2π` (R185). -/
abbrev phaseInTurn (p : Word) : Prop := fge p ZERO = true ∧ flt p TWO_PI = true

/-- The properties S2 to S4 of a sine function (R126); S1 holds of every function. -/
abbrev SineProps (f : Word → Word) : Prop :=
  (∀ x, isFinite x = true → isNaN (f x) = false ∧ fle (f x) ONE = true ∧ fge (f x) (fneg ONE) = true) ∧
  (∀ x, isFinite x = false → f x = NAN) ∧
  f ZERO = ZERO

end Sys2Proof.Machine
end

