-- ==== Sys2Proof/Certificates/Slice0/Obligations.lean ====
section
/-!
DEFINITION. The statements about the machine, from the numbered rules of spec/. Each docstring names the rule it
formalises. `t` is always the state after.
-/

open Sys2Proof Sys2Proof.Machine

/-! ## Encoding (R81, R84, R85, R87, R88) -/

/-- R84, R86: the word of every command is legal and decodes to that command, every operand at every value. -/
def Obligations.DecodeEncodeRoundTrip : Prop :=
  ∀ i : Instr, i.fields.wellFormed = true ∧ decode (encode i) = .ok i

/-- R87, R91: a word that decodes to a command is the word of that command: no bit is ignored. -/
def Obligations.EncodeDecodeRoundTrip : Prop :=
  ∀ (w : CmdWord) (i : Instr), decode w = .ok i → encode i = w

/-- R85: a word spells the command of a row iff its masked bits are the row's; the rows are pairwise disjoint; a word
that matches none is illegal. -/
def Obligations.WordSpellsCommandIffItMatchesRow : Prop :=
  (∀ (w : CmdWord) (n : Nat) (p : Pattern), patterns[n]? = some p →
    (p.accepts w = true ↔ ∃ i, decode w = .ok i ∧ i.row = n)) ∧
  (∀ (w : CmdWord) (m n : Nat) (p q : Pattern), patterns[m]? = some p → patterns[n]? = some q →
    p.accepts w = true → q.accepts w = true → m = n) ∧
  (∀ w : CmdWord, (∀ p ∈ patterns, p.accepts w = false) ↔ ∃ why, decode w = .error why)

/-- R87, R88: exactly the words with a reserved `op`, a non-zero must-be-zero field or a `sel` out of range are
illegal. -/
def Obligations.IllegalWordsAreThoseWithBadField : Prop :=
  ∀ (w : CmdWord) (op sel : Nat) (a b : Word),
    op = (w.extractLsb' 68 4).toNat → sel = (w.extractLsb' 64 4).toNat →
    a = w.extractLsb' 32 32 → b = w.extractLsb' 0 32 →
    ((∃ why, decode w = .error why) ↔
      (op = 0 ∨ 10 ≤ op) ∨
      ((op = 1 ∨ op = 3 ∨ op = 4 ∨ op = 5) ∧ sel ≠ 0) ∨
      (op = 2 ∧ 3 < sel) ∨ (op = 6 ∧ 1 < sel) ∨ (op = 7 ∧ 2 < sel) ∨
      ((op = 2 ∨ op = 3 ∨ op = 5 ∨ op = 7 ∨ op = 8) ∧ a ≠ 0) ∨
      ((op = 1 ∨ op = 3 ∨ op = 4 ∨ op = 7 ∨ op = 8 ∨ op = 9) ∧ b ≠ 0))

/-- R84 and the examples of R142 to R144, R161, R163, R181, R202, R220, R221: one written word per row. -/
def Obligations.SpecWordsDecode : Prop :=
  decode 0x103F00000000000000 = .ok (.rbPush 0x3F000000) ∧
  decode 0x200000000000000004 = .ok (.rbGet .rb0 4) ∧
  decode 0x300000000000000000 = .ok .rbInit ∧
  decode 0x403F00000000000000 = .ok (.fdlProc 0x3F000000) ∧
  decode 0x500000000000000001 = .ok (.fdlInit 1) ∧
  decode 0x613F0000000000BB80 = .ok (.modProc true 0x3F000000 48000) ∧
  decode 0x700000000000000000 = .ok .modInitVibrato ∧
  decode 0x710000000000000000 = .ok .modInitChorus ∧
  decode 0x720000000000000000 = .ok .modInitFlanger ∧
  decode 0x890000000000000000 = .ok (.csrRd .modRate) ∧
  decode 0x9B3F00000000000000 = .ok (.csrWr .modMix 0x3F000000)

/-! ## The step and the ports (R5, R6, R80, R83, R290, R291) -/

/-- R5, R87: a presented word that spells a command is taken off the port and the step is that command. The
list form of the port is the model's choice (log entries 3 and 6). -/
def Obligations.StepRunsDecodedCommand : Prop :=
  ∀ (s : State) (w : CmdWord) (rest : List HostEvent) (i : Instr),
    s.inputs = .present w :: rest → decode w = .ok i → step s = exec i { s with inputs := rest }

/-- R253: a presented word that matches no row of the table ends with E_ILLEGAL: the response `1000000000`, the flag
`ERR[1]`, and nothing else. -/
def Obligations.IllegalWordEndsWithIllegalError : Prop :=
  ∀ (s : State) (w : CmdWord) (rest : List HostEvent),
    s.inputs = .present w :: rest → (∀ p ∈ patterns, p.accepts w = false) →
    step s = .next { s with
      inputs := rest, err := { s.err with illegal := true }, responses := s.responses ++ [0x1000000000] }

/-- R83 (a), R291: accepting takes the oldest waiting response and changes nothing else; with no event the block
idles. That one step is one host event, and what a step without an event is, are the model's choice (log entry 3). -/
def Obligations.ResponsesDeliveredInOrder : Prop :=
  (∀ (s : State) (rest : List HostEvent) (r : RspWord) (rs : List RspWord),
    s.inputs = .acceptResponse :: rest → s.responses = r :: rs →
    step s = .next { s with inputs := rest, responses := rs, delivered := s.delivered ++ [r] }) ∧
  (∀ (s : State) (rest : List HostEvent), s.inputs = .acceptResponse :: rest → s.responses = [] →
    step s = .next { s with inputs := rest }) ∧
  (∀ s : State, s.inputs = [] → step s = .next s)

/-- R43, R83 (e), R290: the reset pin gives all architectural state its reset value, drops the undelivered responses,
and keeps the build. That the host's coming events and the delivered responses stay is the model's choice (log entry
3). -/
def Obligations.ResetPinGivesResetValues : Prop :=
  ∀ (s : State) (rest : List HostEvent), s.inputs = .assertReset :: rest →
    ∃ t, step s = .next t ∧
      ((∀ n, t.rb.mem.read n = 0) ∧ t.rb.widx = 0) ∧
      ((∀ n, t.fdl.ih.mem.read n = 0) ∧ t.fdl.ih.widx = 0 ∧ (∀ n, t.fdl.oh.mem.read n = 0) ∧ t.fdl.oh.widx = 0 ∧
        t.fdl.delay = 0 ∧ t.fdl.wet = 0x00000000 ∧ t.fdl.fb = 0x00000000) ∧
      ((∀ n, t.mod.mh.mem.read n = 0) ∧ t.mod.mh.widx = 0 ∧ t.mod.variant = .vibrato ∧
        t.mod.rate = 0x40A00000 ∧ t.mod.depth = 0x41200000 ∧ t.mod.mix = 0x3F800000 ∧ t.mod.phase = 0x00000000 ∧
        t.mod.firstDone = false ∧ t.mod.logged = false ∧ t.mod.logMin = 0 ∧ t.mod.logMax = 0) ∧
      (∀ e, t.err.get e = false) ∧
      t.responses = [] ∧ t.build = s.build ∧ t.inputs = rest ∧ t.delivered = s.delivered

/-- R266: every step completes, whatever the state; a presented word, legal or not, gets exactly one response. -/
def Obligations.EveryStepCompletes : Prop :=
  ∀ s : State, ∃ t, step s = .next t ∧
    (∀ w rest, s.inputs = .present w :: rest → ∃ r, t.responses = s.responses ++ [r] ∧ t.inputs = rest)

/-- R82, R83 (a): every command forms one response; its zero bits are zero, its code is at most 6, a response with a
code carries no data and no log bit, and only MOD.PROC sets the log bit. -/
def Obligations.OneWellFormedResponsePerCommand : Prop :=
  ∀ (i : Instr) (s : State), ∃ t r, exec i s = .next t ∧ Answered s t r ∧
    padOf r = 0 ∧ (errOf r).toNat ≤ 6 ∧
    (errOf r ≠ 0 → dataOf r = 0 ∧ logOf r = 0) ∧
    (logOf r = 1 → ∃ x sr, i = .modProc true x sr)

/-! ## The ring buffer (R22, R44, R61, R140, R141, R145) -/

/-- R140: a push writes the slot at the write index, which is the oldest retained one (the slot of delay 0 and of
delay N), and advances the index modulo N; no other slot changes. -/
def Obligations.PushWritesOldestSlotOnly : Prop :=
  ∀ (k : Nat) (b : RingBuf) (v : Word), k ≤ 31 → b.widx.toNat < 2 ^ k →
    (b.push k v).mem.read b.widx.toNat = v ∧
    (∀ n, n ≠ b.widx.toNat → (b.push k v).mem.read n = b.mem.read n) ∧
    (b.push k v).widx.toNat = (b.widx.toNat + 1) % 2 ^ k ∧
    b.slotOf k 0 = b.widx ∧ b.slotOf k (BitVec.ofNat 32 (2 ^ k)) = b.widx

/-- R61: a push writes the slot `widx`; a read takes the slot `(widx - (d & m)) & m`, which never leaves the buffer. -/
def Obligations.EffectiveAddressStaysInBuffer : Prop :=
  ∀ (k : Nat) (b : RingBuf) (v d : Word) (m : Word), k ≤ 31 → b.widx.toNat < 2 ^ k →
    m = BitVec.ofNat 32 (2 ^ k - 1) →
    (b.push k v).mem = b.mem.write b.widx.toNat v ∧
    b.get k d = b.mem.read ((b.widx - (d &&& m)) &&& m).toNat ∧
    ((b.widx - (d &&& m)) &&& m).toNat = (b.widx.toNat + (2 ^ k - d.toNat % 2 ^ k)) % 2 ^ k ∧
    ((b.widx - (d &&& m)) &&& m).toNat < 2 ^ k

/-- R141: a delay counts modulo the capacity: every multiple of N is delay 0, and only the low K bits matter. -/
def Obligations.DelayWrapsSilently : Prop :=
  ∀ (k : Nat) (b : RingBuf), k ≤ 31 →
    (∀ d : Word, b.get k d = b.get k (BitVec.ofNat 32 (d.toNat % 2 ^ k))) ∧
    (∀ j : Nat, b.get k (BitVec.ofNat 32 (j * 2 ^ k)) = b.get k 0) ∧
    (1 ≤ k → b.get k 0xFFFFFFFF = b.get k (BitVec.ofNat 32 (2 ^ k - 1)))

/-- R145: after any pushes into a zero-filled buffer, delay `d` from 1 to N reads the value pushed `d` steps before
the next push, or zero if there were fewer pushes. -/
def Obligations.WrapCorrectness : Prop :=
  ∀ (k : Nat) (vs : List Word) (d : Word), k ≤ 31 → delayInHistory k d →
    (vs.foldl (RingBuf.push k) RingBuf.empty).get k d = vs.reverse.getD (d.toNat - 1) 0

/-- R44: from a zero-filled storage the starting write index cannot be observed by pushes and reads. -/
def Obligations.StartingIndexUnobservable : Prop :=
  ∀ (k : Nat) (w w' : Word) (vs : List Word) (d : Word), k ≤ 31 → w.toNat < 2 ^ k → w'.toNat < 2 ^ k →
    (vs.foldl (RingBuf.push k) ⟨[], w⟩).get k d = (vs.foldl (RingBuf.push k) ⟨[], w'⟩).get k d

/-- R22, R191: after a push, delay 1 is the pushed value and every older value is one delay further. -/
def Obligations.PushShiftsHistory : Prop :=
  ∀ (k : Nat) (b : RingBuf) (v : Word), k ≤ 31 → b.widx.toNat < 2 ^ k →
    (b.push k v).get k 1 = v ∧
    (∀ d : Word, 1 ≤ d.toNat → d.toNat < 2 ^ k → (b.push k v).get k (d + 1) = b.get k d)

/-- R142: RB.PUSH writes one slot and the write index of RB0, answers `0000000000`, and changes nothing else. -/
def Obligations.RbPushEffect : Prop :=
  ∀ (v : Word) (s : State), ∃ t, exec (.rbPush v) s = .next t ∧ Answered s t 0x0000000000 ∧
    t.rb.mem.read s.rb.widx.toNat = v ∧
    (∀ n, n ≠ s.rb.widx.toNat → t.rb.mem.read n = s.rb.mem.read n) ∧
    t.rb.widx.toNat = (s.rb.widx.toNat + 1) % 2 ^ s.build.kRb.val ∧
    t.fdl = s.fdl ∧ t.mod = s.mod ∧ t.err = s.err

/-- R143: RB.GET answers the slot its delay addresses, of the buffer its number names, and changes nothing. -/
def Obligations.RbGetEffect : Prop :=
  ∀ (d : Word) (s : State),
    exec (.rbGet .rb0 d) s = .next { s with responses := s.responses ++
      [responseWord 0 false (s.rb.mem.read ((s.rb.widx - (d &&& idxMask s.build.kRb.val)) &&& idxMask s.build.kRb.val).toNat)] } ∧
    exec (.rbGet .ih d) s = .next { s with responses := s.responses ++
      [responseWord 0 false (s.fdl.ih.mem.read ((s.fdl.ih.widx - (d &&& idxMask s.build.kFdl.val)) &&& idxMask s.build.kFdl.val).toNat)] } ∧
    exec (.rbGet .oh d) s = .next { s with responses := s.responses ++
      [responseWord 0 false (s.fdl.oh.mem.read ((s.fdl.oh.widx - (d &&& idxMask s.build.kFdl.val)) &&& idxMask s.build.kFdl.val).toNat)] } ∧
    exec (.rbGet .mh d) s = .next { s with responses := s.responses ++
      [responseWord 0 false (s.mod.mh.mem.read ((s.mod.mh.widx - (d &&& idxMask s.build.kMod)) &&& idxMask s.build.kMod).toNat)] }

/-- R144: RB.INIT zero-fills RB0, puts its write index to 0, answers `0000000000`, and changes nothing else. -/
def Obligations.RbInitEffect : Prop :=
  ∀ s : State, ∃ t, exec .rbInit s = .next t ∧ Answered s t 0x0000000000 ∧
    (∀ n, t.rb.mem.read n = 0) ∧ t.rb.widx = 0 ∧ (∀ d, t.rb.get s.build.kRb.val d = 0) ∧
    t.fdl = s.fdl ∧ t.mod = s.mod ∧ t.err = s.err

/-! ## The feedback delay line (R161 to R168) -/

/-- R161: FDL.PROC reads both histories at DELAY before it pushes, computes
`((1 - WET) * x + WET * di) + FB * do`, pushes the input into IH and the output into OH, and changes nothing else. -/
def Obligations.FdlProcEffect : Prop :=
  ∀ (x : Word) (s : State), ∃ t out, exec (.fdlProc x) s = .next t ∧
    out = fadd (fadd (fmul (fsub ONE s.fdl.wet) x)
                     (fmul s.fdl.wet (s.fdl.ih.get s.build.kFdl.val s.fdl.delay)))
               (fmul s.fdl.fb (s.fdl.oh.get s.build.kFdl.val s.fdl.delay)) ∧
    Answered s t (responseWord 0 false out) ∧
    t.fdl.ih.mem.read s.fdl.ih.widx.toNat = x ∧
    (∀ n, n ≠ s.fdl.ih.widx.toNat → t.fdl.ih.mem.read n = s.fdl.ih.mem.read n) ∧
    t.fdl.ih.widx.toNat = (s.fdl.ih.widx.toNat + 1) % 2 ^ s.build.kFdl.val ∧
    t.fdl.oh.mem.read s.fdl.oh.widx.toNat = out ∧
    (∀ n, n ≠ s.fdl.oh.widx.toNat → t.fdl.oh.mem.read n = s.fdl.oh.mem.read n) ∧
    t.fdl.oh.widx.toNat = (s.fdl.oh.widx.toNat + 1) % 2 ^ s.build.kFdl.val ∧
    t.fdl.delay = s.fdl.delay ∧ t.fdl.wet = s.fdl.wet ∧ t.fdl.fb = s.fdl.fb ∧
    t.rb = s.rb ∧ t.mod = s.mod ∧ t.err = s.err

/-- R162: from zero-filled histories, with `1 <= D <= N_FDL - 1`, the outputs satisfy
`y[n] = (1 - WET) * x[n] + WET * x[n - D] + FB * y[n - D]`, whatever the inputs. -/
def Obligations.FdlOutputsSatisfyRecurrence : Prop :=
  ∀ (s : State) (xs : List Word), s.fdl.ih = RingBuf.empty → s.fdl.oh = RingBuf.empty →
    1 ≤ s.fdl.delay.toNat → s.fdl.delay.toNat < 2 ^ s.build.kFdl.val →
    ∃ ys, FdlAnswers s xs ys ∧ FdlRecurrence s.fdl.wet s.fdl.fb s.fdl.delay.toNat xs ys

/-- R166: DELAY = 0 passes the check of FDL.INIT and of CSR.WR, and is a delay of N_FDL samples. -/
def Obligations.DelayZeroIsFullBufferDelay : Prop :=
  (∀ s : State, delayError s 0 = none) ∧
  (∀ (s : State) (xs : List Word), s.fdl.ih = RingBuf.empty → s.fdl.oh = RingBuf.empty → s.fdl.delay = 0 →
    ∃ ys, FdlAnswers s xs ys ∧ FdlRecurrence s.fdl.wet s.fdl.fb (2 ^ s.build.kFdl.val) xs ys)

/-- R167: with both gains +0, FDL.PROC answers its input: the value always, the bits but for `-0`; the non-finite
cases as the rule lists them; and finite histories stay finite. -/
def Obligations.ZeroGainIdentity : Prop :=
  ∀ (x : Word) (s : State), s.fdl.wet = 0x00000000 → s.fdl.fb = 0x00000000 →
    ∃ t out di dout, exec (.fdlProc x) s = .next t ∧ t.responses = s.responses ++ [responseWord 0 false out] ∧
      di = s.fdl.ih.get s.build.kFdl.val s.fdl.delay ∧ dout = s.fdl.oh.get s.build.kFdl.val s.fdl.delay ∧
      (isFinite x = true → isFinite di = true → isFinite dout = true →
        isFinite out = true ∧ units out = units x ∧
        (x ≠ NEG_ZERO → out = x) ∧
        (x = NEG_ZERO → (signBit di = false ∨ signBit dout = false) → out = ZERO) ∧
        (x = NEG_ZERO → signBit di = true → signBit dout = true → out = NEG_ZERO)) ∧
      (isInf x = true → isFinite di = true → isFinite dout = true → out = x) ∧
      (isNaN x = true → out = NAN) ∧
      (isFinite di = false ∨ isFinite dout = false → out = NAN) ∧
      (isFinite x = true → s.fdl.ih.allFinite → s.fdl.oh.allFinite → t.fdl.ih.allFinite ∧ t.fdl.oh.allFinite)

/-- R168: WET = 1, FB = f with 0 < f < 1 and a unit impulse: the outputs at multiples of the delay are 1, f, f * f and
so on, each the rounded product of f with the one before, and every other output is +0. -/
def Obligations.FeedbackDecayIsGeometric : Prop :=
  ∀ (s : State) (m : Nat), s.fdl.ih = RingBuf.empty → s.fdl.oh = RingBuf.empty → s.fdl.wet = ONE →
    flt ZERO s.fdl.fb = true → flt s.fdl.fb ONE = true →
    1 ≤ s.fdl.delay.toNat → s.fdl.delay.toNat < 2 ^ s.build.kFdl.val →
    ∃ ys, FdlAnswers s (ONE :: List.replicate m ZERO) ys ∧
      ys.getD 0 0 = ZERO ∧
      (∀ n, n ≤ m → n % s.fdl.delay.toNat ≠ 0 → ys.getD n 0 = ZERO) ∧
      (s.fdl.delay.toNat ≤ m → ys.getD s.fdl.delay.toNat 0 = ONE) ∧
      (2 * s.fdl.delay.toNat ≤ m → ys.getD (2 * s.fdl.delay.toNat) 0 = s.fdl.fb) ∧
      (∀ j, 1 ≤ j → (j + 1) * s.fdl.delay.toNat ≤ m →
        ys.getD ((j + 1) * s.fdl.delay.toNat) 0 = fmul s.fdl.fb (ys.getD (j * s.fdl.delay.toNat) 0))

/-- R164: a delay length is accepted, by FDL.INIT and by CSR.WR, iff it is below the capacity (unsigned); otherwise the
command ends with E_DELAY and changes only `ERR[2]`; and no command brings DELAY to the capacity. -/
def Obligations.DelayAcceptedIffBelowCapacity : Prop :=
  (∀ (v : Word) (s : State), v.toNat < 2 ^ s.build.kFdl.val →
    exec (.fdlInit v) s = .next { s with
      fdl := { ih := ⟨[], 0⟩, oh := ⟨[], 0⟩, delay := v, wet := 0x00000000, fb := 0x00000000 },
      responses := s.responses ++ [0x0000000000] } ∧
    exec (.csrWr .fdlDelay v) s = .next { s with
      fdl := { s.fdl with delay := v }, responses := s.responses ++ [0x0000000000] }) ∧
  (∀ (v : Word) (s : State), 2 ^ s.build.kFdl.val ≤ v.toNat →
    exec (.fdlInit v) s = .next { s with
      err := { s.err with delay := true }, responses := s.responses ++ [0x2000000000] } ∧
    exec (.csrWr .fdlDelay v) s = .next { s with
      err := { s.err with delay := true }, responses := s.responses ++ [0x2000000000] }) ∧
  (∀ (i : Instr) (s t : State), exec i s = .next t → s.fdl.delay.toNat < 2 ^ s.build.kFdl.val →
    t.fdl.delay.toNat < 2 ^ t.build.kFdl.val)

/-! ## The modulation engine (R181 to R202) -/

/-- R182, R257: MOD.PROC with a zero sample rate ends with E_SRATE before it touches anything. -/
def Obligations.ModProcRefusesZeroRate : Prop :=
  ∀ (logging : Bool) (x : Word) (s : State),
    exec (.modProc logging x 0) s = .next { s with
      err := { s.err with srate := true }, responses := s.responses ++ [0x5000000000] }

/-- R181, R183, R184, R186, R188, R189, R190, R192, R193, R194, R200: MOD.PROC with a non-zero sample rate, step by
step. -/
def Obligations.ModProcEffect : Prop :=
  ∀ (logging : Bool) (x b : Word) (s : State), b ≠ 0 →
    ∃ t sr p0 p base dly d0 fr y0 y1 wet out, exec (.modProc logging x b) s = .next t ∧
      sr = u2f b ∧
      p0 = fadd s.mod.phase (fdiv (fmul TWO_PI s.mod.rate) sr) ∧
      p = (if fge p0 TWO_PI then fsub p0 TWO_PI else p0) ∧
      (s.mod.variant = .vibrato → base = fadd s.mod.depth ONE) ∧
      (s.mod.variant = .chorus → base = fmul C_CHORUS sr) ∧
      (s.mod.variant = .flanger → base = fmul C_FLANGER sr) ∧
      dly = fmaxSel ONE (fminSel (fadd base (fmul s.mod.depth (SIN p))) (u2f (BitVec.ofNat 32 (2 ^ s.build.kMod - 2)))) ∧
      d0 = floorU dly ∧ fr = fsub dly (u2f d0) ∧
      y0 = (s.mod.mh.push s.build.kMod x).get s.build.kMod d0 ∧
      y1 = (s.mod.mh.push s.build.kMod x).get s.build.kMod (d0 + 1) ∧
      wet = fadd (fmul (fsub ONE fr) y0) (fmul fr y1) ∧
      out = fadd (fmul s.mod.mix wet) (fmul (fsub ONE s.mod.mix) x) ∧
      Answered s t (responseWord 0 (decide (s.mod.firstDone = false ∧ logging = true)) out) ∧
      t.mod.mh.mem.read s.mod.mh.widx.toNat = x ∧
      (∀ n, n ≠ s.mod.mh.widx.toNat → t.mod.mh.mem.read n = s.mod.mh.mem.read n) ∧
      t.mod.mh.widx.toNat = (s.mod.mh.widx.toNat + 1) % 2 ^ s.build.kMod ∧
      t.mod.phase = p ∧ t.mod.firstDone = true ∧
      (s.mod.firstDone = false ∧ logging = true →
        t.mod.logged = true ∧ t.mod.logMin = fmul (fdiv (fsub base s.mod.depth) sr) THOUSAND ∧
        t.mod.logMax = fmul (fdiv (fadd base s.mod.depth) sr) THOUSAND) ∧
      (¬(s.mod.firstDone = false ∧ logging = true) →
        t.mod.logged = s.mod.logged ∧ t.mod.logMin = s.mod.logMin ∧ t.mod.logMax = s.mod.logMax) ∧
      t.mod.variant = s.mod.variant ∧ t.mod.rate = s.mod.rate ∧ t.mod.depth = s.mod.depth ∧
      t.mod.mix = s.mod.mix ∧ t.rb = s.rb ∧ t.fdl = s.fdl ∧ t.err = s.err

/-- R189: the clamp, for every possible input: the result is finite and lies in `[1, N_MOD - 2]`; a value inside is
unchanged bit for bit; a value above becomes `N_MOD - 2`, a value below and a NaN become 1. -/
def Obligations.ClampBoundsDelay : Prop :=
  ∀ (k : Nat) (d top : Word), 2 ≤ k → k ≤ 24 → top = u2f (BitVec.ofNat 32 (2 ^ k - 2)) →
    units top = (2 ^ k - 2 : Nat) * 2 ^ 149 ∧
    isFinite (clampDelay k d) = true ∧ fge (clampDelay k d) ONE = true ∧ fle (clampDelay k d) top = true ∧
    (fge d ONE = true → fle d top = true → clampDelay k d = d) ∧
    (fgt d top = true → clampDelay k d = top) ∧
    (flt d ONE = true → clampDelay k d = ONE) ∧
    (isNaN d = true → clampDelay k d = ONE)

/-- R112, R190: the clamped delay splits exactly into an integer from 1 to `N_MOD - 2` and a fraction in `[0, 1)`, and
neither tap wraps. -/
def Obligations.DelaySplitsExactly : Prop :=
  ∀ (k : Nat) (d dly d0 fr : Word), 2 ≤ k → k ≤ 24 → dly = clampDelay k d → d0 = floorU dly → fr = fracPart dly →
    1 ≤ d0.toNat ∧ d0.toNat ≤ 2 ^ k - 2 ∧
    (d0 + 1).toNat = d0.toNat + 1 ∧ idxReduce k d0 = d0 ∧ idxReduce k (d0 + 1) = d0 + 1 ∧
    isFinite fr = true ∧ units fr = units dly - d0.toNat * 2 ^ 149 ∧ 0 ≤ units fr ∧ units fr < 2 ^ 149 ∧
    (fr = ZERO ↔ ∃ n : Int, units dly = n * 2 ^ 149) ∧
    (dly = u2f (BitVec.ofNat 32 (2 ^ k - 2)) → d0.toNat = 2 ^ k - 2 ∧ fr = ZERO)

/-- R184, R185, R304: the increment is never negative and never a NaN; and while every increment is below one turn, no
command takes PHASE out of `[0, 2π)`. -/
def Obligations.PhaseStaysInTurn : Prop :=
  (∀ (rate b : Word), isFinite rate = true → fgt rate ZERO = true → b ≠ 0 →
    fge (phaseIncrement rate (u2f b)) ZERO = true) ∧
  (∀ (i : Instr) (s t : State), exec i s = .next t → s.mod.ParamsInv → phaseInTurn s.mod.phase →
    (∀ logging x b, i = .modProc logging x b → b ≠ 0 → incrementBelowTurn s.mod.rate (u2f b)) →
    phaseInTurn t.mod.phase)

/-- R196: at an integer delay the wet sample is the plain buffer read at that delay, in value always and in bits but
for `-0`; the non-finite cases as the rule lists them. -/
def Obligations.InterpolationExactAtIntegerDelay : Prop :=
  ∀ (k : Nat) (mh : RingBuf) (dly y0 y1 : Word), fracPart dly = ZERO →
    y0 = mh.get k (floorU dly) → y1 = mh.get k (floorU dly + 1) →
    (isFinite y0 = true → isFinite y1 = true →
      isFinite (wetSample k mh dly) = true ∧ units (wetSample k mh dly) = units y0) ∧
    (isNaN y0 = false → isFinite y1 = true → ¬(y0 = NEG_ZERO ∧ signBit y1 = false) → wetSample k mh dly = y0) ∧
    (y0 = NEG_ZERO → isFinite y1 = true → signBit y1 = false → wetSample k mh dly = ZERO) ∧
    (isFinite y1 = false → wetSample k mh dly = NAN) ∧
    (isNaN y0 = true → wetSample k mh dly = NAN)

/-- R197: mix 0 gives the input, mix 1 the wet sample, in value, with the signs of zero and the non-finite cases as the
rule lists them; the setter accepts `-0`, which acts as `+0` but for the sign of a zero. -/
def Obligations.MixLawBoundary : Prop :=
  (∀ wet x : Word, isFinite wet = true →
    (isNaN x = false → ¬(x = NEG_ZERO ∧ signBit wet = false) → mixLaw ZERO wet x = x) ∧
    (x = NEG_ZERO → signBit wet = false → mixLaw ZERO wet x = ZERO)) ∧
  (∀ wet x : Word, isFinite wet = false → mixLaw ZERO wet x = NAN) ∧
  (∀ wet x : Word, isFinite x = true →
    (isFinite wet = true → isFinite (mixLaw ONE wet x) = true ∧ units (mixLaw ONE wet x) = units wet) ∧
    (isInf wet = true → mixLaw ONE wet x = wet)) ∧
  (∀ wet x : Word, isFinite x = false → mixLaw ONE wet x = NAN) ∧
  mixError NEG_ZERO = none ∧
  (∀ wet x : Word, mixLaw NEG_ZERO wet x = mixLaw ZERO wet x ∨
    (isZero (mixLaw NEG_ZERO wet x) = true ∧ isZero (mixLaw ZERO wet x) = true))

/-- R199: with DEPTH a zero and a finite phase the delay is the clamped base delay whatever the sine, and for Vibrato
it is exactly 1, so that the first tap is the current input. -/
def Obligations.DepthZeroIgnoresSine : Prop :=
  ∀ (k : Nat) (u : ModUnit) (x b : Word) (sine : Word → Word), 2 ≤ k → k ≤ 24 → b ≠ 0 → SineProps sine →
    u.mh.widx.toNat < 2 ^ k → (u.depth = ZERO ∨ u.depth = NEG_ZERO) →
    isFinite (nextPhase u.phase u.rate (u2f b)) = true →
    u.delayWith sine k (u2f b) = clampDelay k (baseDelay u.variant u.depth (u2f b)) ∧
    (u.variant = .vibrato →
      u.delayWith sine k (u2f b) = ONE ∧ floorU ONE = 1 ∧ fracPart ONE = ZERO ∧ (u.mh.push k x).get k 1 = x)

/-- R200, R201: once FIRST_DONE is set, no command but MOD.INIT changes any of the log state, and no response has its
log bit set. -/
def Obligations.LogRecordedAtMostOnce : Prop :=
  ∀ (i : Instr) (s t : State), exec i s = .next t → s.mod.firstDone = true →
    (∃ r, t.responses = s.responses ++ [r] ∧ logOf r = 0) ∧
    (i ≠ .modInitVibrato → i ≠ .modInitChorus → i ≠ .modInitFlanger →
      t.mod.firstDone = true ∧ t.mod.logged = s.mod.logged ∧ t.mod.logMin = s.mod.logMin ∧
      t.mod.logMax = s.mod.logMax)

/-- R187, R202: MOD.INIT constructs the MOD as its variant with that variant's presets, and changes nothing else. -/
def Obligations.ModInitLoadsPresets : Prop :=
  ∀ s : State,
    exec .modInitVibrato s = .next { s with
      mod := { mh := ⟨[], 0⟩, variant := .vibrato, rate := 0x40A00000, depth := 0x41200000, mix := 0x3F800000,
               phase := 0x00000000, firstDone := false, logged := false, logMin := 0, logMax := 0 },
      responses := s.responses ++ [0x0000000000] } ∧
    exec .modInitChorus s = .next { s with
      mod := { mh := ⟨[], 0⟩, variant := .chorus, rate := 0x3F4CCCCD, depth := 0x42C00000, mix := 0x3F000000,
               phase := 0x00000000, firstDone := false, logged := false, logMin := 0, logMax := 0 },
      responses := s.responses ++ [0x0000000000] } ∧
    exec .modInitFlanger s = .next { s with
      mod := { mh := ⟨[], 0⟩, variant := .flanger, rate := 0x3E4CCCCD, depth := 0x42400000, mix := 0x3F000000,
               phase := 0x00000000, firstDone := false, logged := false, logMin := 0, logMax := 0 },
      responses := s.responses ++ [0x0000000000] }

/-! ## The control and status registers (R30 to R41, R220 to R228) -/

/-- R220, R30 to R41: CSR.RD answers the register's value and changes nothing. CAP and STATUS are written as the sums
of their fields. -/
def Obligations.CsrRdReturnsRegister : Prop :=
  ∀ (s : State) (c : Csr), exec (.csrRd c) s = .next { s with responses := s.responses ++ [responseWord 0 false
    (match c with
      | .cap => BitVec.ofNat 32 (s.build.kRb.val + s.build.kFdl.val * 2 ^ 8 + s.build.kMod * 2 ^ 16 + 2 ^ 24)
      | .status => BitVec.ofNat 32 (s.err.illegal.toNat * 2 + s.err.delay.toNat * 2 ^ 2 +
          s.err.nonfinite.toNat * 2 ^ 3 + s.err.range.toNat * 2 ^ 4 + s.err.srate.toNat * 2 ^ 5 +
          s.err.ro.toNat * 2 ^ 6 + s.mod.firstDone.toNat * 2 ^ 8 + s.mod.logged.toNat * 2 ^ 9)
      | .rbWidx => s.rb.widx
      | .fdlDelay => s.fdl.delay
      | .fdlWet => s.fdl.wet
      | .fdlFb => s.fdl.fb
      | .fdlIhWidx => s.fdl.ih.widx
      | .fdlOhWidx => s.fdl.oh.widx
      | .modVariant => (match s.mod.variant with | .vibrato => 0 | .chorus => 1 | .flanger => 2)
      | .modRate => s.mod.rate
      | .modDepth => s.mod.depth
      | .modMix => s.mod.mix
      | .modPhase => s.mod.phase
      | .modWidx => s.mod.mh.widx
      | .logMin => s.mod.logMin
      | .logMax => s.mod.logMax)] }

/-- R31: the fields of CAP, its example, and that no command changes it. -/
def Obligations.CapReportsBuild : Prop :=
  (∀ s : State,
    ((s.csr .cap).extractLsb' 0 5).toNat = s.build.kRb.val ∧ (s.csr .cap).extractLsb' 5 3 = 0 ∧
    ((s.csr .cap).extractLsb' 8 5).toNat = s.build.kFdl.val ∧ (s.csr .cap).extractLsb' 13 3 = 0 ∧
    ((s.csr .cap).extractLsb' 16 5).toNat = s.build.kMod ∧ (s.csr .cap).extractLsb' 21 3 = 0 ∧
    (s.csr .cap).extractLsb' 24 8 = 1) ∧
  (∀ s : State, s.build = ⟨2, 2, 4⟩ → s.csr .cap = 0x01060202) ∧
  (∀ (s : State) (v : Word), writeError s .cap v = some .ro) ∧
  (∀ s t : State, step s = .next t → t.csr .cap = s.csr .cap)

/-- R32, R45 (g): the bits of STATUS, bit by bit. -/
def Obligations.StatusBits : Prop :=
  ∀ (s : State) (n : Nat), (s.csr .status).getLsbD n =
    match n with
    | 1 => s.err.illegal
    | 2 => s.err.delay
    | 3 => s.err.nonfinite
    | 4 => s.err.range
    | 5 => s.err.srate
    | 6 => s.err.ro
    | 8 => s.mod.firstDone
    | 9 => s.mod.logged
    | _ => false

/-- R35, R228: FDL_WET and FDL_FB take every 32-bit value, bit for bit. -/
def Obligations.FdlGainsTakeEveryValue : Prop :=
  ∀ (v : Word) (s : State),
    exec (.csrWr .fdlWet v) s = .next { s with
      fdl := { s.fdl with wet := v }, responses := s.responses ++ [0x0000000000] } ∧
    exec (.csrWr .fdlFb v) s = .next { s with
      fdl := { s.fdl with fb := v }, responses := s.responses ++ [0x0000000000] }

/-- R224 to R227, R262: a value written to MOD_RATE, MOD_DEPTH or MOD_MIX is refused with E_NONFINITE if it is not
finite, else with E_RANGE if it is outside the domain, else stored bit for bit; nothing else changes. -/
def Obligations.ModParametersValidated : Prop :=
  ∀ (v : Word) (s : State),
    exec (.csrWr .modRate v) s = .next (
      if isFinite v = false then
        { s with err := { s.err with nonfinite := true }, responses := s.responses ++ [0x3000000000] }
      else if units v ≤ 0 then
        { s with err := { s.err with range := true }, responses := s.responses ++ [0x4000000000] }
      else { s with mod := { s.mod with rate := v }, responses := s.responses ++ [0x0000000000] }) ∧
    exec (.csrWr .modDepth v) s = .next (
      if isFinite v = false then
        { s with err := { s.err with nonfinite := true }, responses := s.responses ++ [0x3000000000] }
      else if units v < 0 then
        { s with err := { s.err with range := true }, responses := s.responses ++ [0x4000000000] }
      else { s with mod := { s.mod with depth := v }, responses := s.responses ++ [0x0000000000] }) ∧
    exec (.csrWr .modMix v) s = .next (
      if isFinite v = false then
        { s with err := { s.err with nonfinite := true }, responses := s.responses ++ [0x3000000000] }
      else if units v < 0 ∨ 2 ^ 149 < units v then
        { s with err := { s.err with range := true }, responses := s.responses ++ [0x4000000000] }
      else { s with mod := { s.mod with mix := v }, responses := s.responses ++ [0x0000000000] })

/-- R222, R258: CSR.WR to a read-only register ends with E_RO whatever the value; nothing changes but `ERR[6]`. -/
def Obligations.ReadOnlyCsrsRefuseWrites : Prop :=
  ∀ (c : Csr) (v : Word) (s : State),
    c ∈ [Csr.cap, .status, .rbWidx, .fdlIhWidx, .fdlOhWidx, .modVariant, .modPhase, .modWidx, .logMin, .logMax] →
    exec (.csrWr c v) s = .next { s with
      err := { s.err with ro := true }, responses := s.responses ++ [0x6000000000] }

/-! ## Errors (R250 to R264) -/

/-- R252: a presented word that ends with an error changes nothing but its code's sticky flag, answers `X000000000`,
and leaves the next event to be performed normally. -/
def Obligations.ErrorsArePrecise : Prop :=
  ∀ (s t : State) (w : CmdWord) (rest : List HostEvent) (r : RspWord),
    s.inputs = .present w :: rest → step s = .next t → t.responses = s.responses ++ [r] → errOf r ≠ 0 →
    ∃ e : ErrCode, errOf r = e.code ∧ r.toNat = e.code.toNat * 2 ^ 36 ∧
      t.err.get e = true ∧ (∀ e', e' ≠ e → t.err.get e' = s.err.get e') ∧
      t.rb = s.rb ∧ t.fdl = s.fdl ∧ t.mod = s.mod ∧ t.build = s.build ∧ t.inputs = rest ∧
      t.delivered = s.delivered

/-- R32, R45 (h), R264: a sticky flag, once set, stays set through every step but the reset pin. -/
def Obligations.StickyFlagsStaySet : Prop :=
  ∀ (s t : State) (e : ErrCode), step s = .next t → s.err.get e = true →
    (∀ rest, s.inputs ≠ .assertReset :: rest) → t.err.get e = true

/-- R250: which command can newly set which sticky flag. -/
def Obligations.ErrorCodesRaisedByTheirCommands : Prop :=
  ∀ (i : Instr) (s t : State) (e : ErrCode), exec i s = .next t → s.err.get e = false → t.err.get e = true →
    match e with
    | .illegal => False
    | .delay => ∃ v, 2 ^ s.build.kFdl.val ≤ v.toNat ∧ (i = .fdlInit v ∨ i = .csrWr .fdlDelay v)
    | .nonfinite => ∃ c v, c ∈ [Csr.modRate, .modDepth, .modMix] ∧ i = .csrWr c v ∧ isFinite v = false
    | .range => ∃ c v, c ∈ [Csr.modRate, .modDepth, .modMix] ∧ i = .csrWr c v ∧ isFinite v = true
    | .srate => ∃ logging x, i = .modProc logging x 0
    | .ro => ∃ c v, c ∉ [Csr.fdlDelay, .fdlWet, .fdlFb, .modRate, .modDepth, .modMix] ∧ i = .csrWr c v

/-! ## The whole machine (R21, R24, R29, R36, R40, R43, R45, R67, R229, R292) -/

/-- R21, R36, R40, R67, R229: which commands can change each buffer, VARIANT, PHASE and each parameter. -/
def Obligations.EachStateHasItsWriters : Prop :=
  ∀ (i : Instr) (s t : State), exec i s = .next t →
    (t.rb ≠ s.rb → (∃ v, i = .rbPush v) ∨ i = .rbInit) ∧
    (t.fdl.ih ≠ s.fdl.ih ∨ t.fdl.oh ≠ s.fdl.oh → (∃ x, i = .fdlProc x) ∨ ∃ d, i = .fdlInit d) ∧
    (t.fdl.delay ≠ s.fdl.delay → (∃ d, i = .fdlInit d) ∨ ∃ v, i = .csrWr .fdlDelay v) ∧
    (t.fdl.wet ≠ s.fdl.wet → (∃ d, i = .fdlInit d) ∨ ∃ v, i = .csrWr .fdlWet v) ∧
    (t.fdl.fb ≠ s.fdl.fb → (∃ d, i = .fdlInit d) ∨ ∃ v, i = .csrWr .fdlFb v) ∧
    (t.mod.mh ≠ s.mod.mh ∨ t.mod.phase ≠ s.mod.phase ∨ t.mod.firstDone ≠ s.mod.firstDone ∨
        t.mod.logged ≠ s.mod.logged ∨ t.mod.logMin ≠ s.mod.logMin ∨ t.mod.logMax ≠ s.mod.logMax →
      (∃ l x b, i = .modProc l x b) ∨ i = .modInitVibrato ∨ i = .modInitChorus ∨ i = .modInitFlanger) ∧
    (t.mod.variant ≠ s.mod.variant → i = .modInitVibrato ∨ i = .modInitChorus ∨ i = .modInitFlanger) ∧
    (t.mod.rate ≠ s.mod.rate →
      (∃ v, i = .csrWr .modRate v) ∨ i = .modInitVibrato ∨ i = .modInitChorus ∨ i = .modInitFlanger) ∧
    (t.mod.depth ≠ s.mod.depth →
      (∃ v, i = .csrWr .modDepth v) ∨ i = .modInitVibrato ∨ i = .modInitChorus ∨ i = .modInitFlanger) ∧
    (t.mod.mix ≠ s.mod.mix →
      (∃ v, i = .csrWr .modMix v) ∨ i = .modInitVibrato ∨ i = .modInitChorus ∨ i = .modInitFlanger) ∧
    t.build = s.build

/-- R45: the invariant holds in the reset state of every build. -/
def Obligations.InvariantHoldsAtReset : Prop :=
  (∀ b : Build, (State.resetOf b).Inv) ∧ State.reset.Inv

/-- R45, R198: every step keeps the invariant: indices below the capacities, canonical storage, DELAY below its
capacity, the FDL's write indices equal, the MOD's parameters in their domains, LOGGED only after FIRST_DONE, PHASE
never a NaN and never negative. The canonical form of the storage is the model's choice (log entry 2). -/
def Obligations.StepKeepsInvariant : Prop :=
  ∀ s t : State, s.Inv → step s = .next t → t.Inv

/-- R43: the reset state of every build, field by field. Which build `State.reset` has is left open (log entry 1). -/
def Obligations.ResetStateValues : Prop :=
  (∀ b : Build, (∀ buf n, ((State.resetOf b).buffer buf).mem.read n = 0 ∧ ((State.resetOf b).buffer buf).widx = 0) ∧
    (State.resetOf b).build = b ∧
    (State.resetOf b).fdl.delay = 0 ∧ (State.resetOf b).fdl.wet = 0x00000000 ∧
    (State.resetOf b).fdl.fb = 0x00000000 ∧ (State.resetOf b).mod.variant = .vibrato ∧
    (State.resetOf b).mod.rate = 0x40A00000 ∧ (State.resetOf b).mod.depth = 0x41200000 ∧
    (State.resetOf b).mod.mix = 0x3F800000 ∧ (State.resetOf b).mod.phase = 0x00000000 ∧
    (State.resetOf b).mod.firstDone = false ∧ (State.resetOf b).mod.logged = false ∧
    (State.resetOf b).mod.logMin = 0x00000000 ∧ (State.resetOf b).mod.logMax = 0x00000000 ∧
    (∀ e, (State.resetOf b).err.get e = false)) ∧
  (∃ b, State.reset = State.resetOf b)

/-- R292: each INIT gives its unit the reset values, then applies its operand, touches that unit only and clears no
sticky flag; after reset, `rb.init ; fdl.init 0 ; mod.init vibrato` changes nothing. -/
def Obligations.InitsReconstructOneUnit : Prop :=
  (∀ (s : State) (b : Build), exec .rbInit s = .next { s with
    rb := (State.resetOf b).rb, responses := s.responses ++ [0x0000000000] }) ∧
  (∀ (s : State) (b : Build) (d : Word), d.toNat < 2 ^ s.build.kFdl.val → exec (.fdlInit d) s = .next { s with
    fdl := { (State.resetOf b).fdl with delay := d }, responses := s.responses ++ [0x0000000000] }) ∧
  (∀ (s : State) (b : Build),
    exec .modInitVibrato s = .next { s with
      mod := (State.resetOf b).mod, responses := s.responses ++ [0x0000000000] } ∧
    exec .modInitChorus s = .next { s with
      mod := { (State.resetOf b).mod with variant := .chorus, rate := CHO_RATE, depth := CHO_DEPTH, mix := CHO_MIX },
      responses := s.responses ++ [0x0000000000] } ∧
    exec .modInitFlanger s = .next { s with
      mod := { (State.resetOf b).mod with variant := .flanger, rate := FLA_RATE, depth := FLA_DEPTH, mix := FLA_MIX },
      responses := s.responses ++ [0x0000000000] }) ∧
  (∀ b : Build, performAll (State.resetOf b) [.rbInit, .fdlInit 0, .modInitVibrato] =
    { State.resetOf b with responses := [0x0000000000, 0x0000000000, 0x0000000000] })

/-! ## The arithmetic (R115 to R127) -/

/-- R117: where the operands are finite, each operation's result is its exact real result rounded to binary32, nearest,
ties to even, with gradual underflow and overflow to infinity. A value is counted in units of 2^-149, so a product is
counted in units of 2^-298, and a quotient `x / y` is `2^149 * units x / units y` units. -/
def Obligations.OperationsRoundToNearestEven : Prop :=
  ∀ x y : Word, isFinite x = true → isFinite y = true →
    RoundsTo (units x + units y) 1 (fadd x y) ∧
    RoundsTo (units x - units y) 1 (fsub x y) ∧
    RoundsTo (units x * units y) (2 ^ 149) (fmul x y) ∧
    (isZero y = false →
      RoundsTo (units x * 2 ^ 149 * (if signBit y then -1 else 1)) (magUnits y) (fdiv x y))

/-- R117: the special cases: signed zeros, infinities, and the sign of a product or quotient. -/
def Obligations.ArithmeticSpecialCases : Prop :=
  (∀ x y : Word, isFinite x = true → isFinite y = true → units x + units y = 0 →
    fadd x y = if signBit x && signBit y then NEG_ZERO else ZERO) ∧
  (∀ x y : Word, isInf x = true → isFinite y = true → fadd x y = x ∧ fadd y x = x) ∧
  (∀ x : Word, isInf x = true → fadd x x = x ∧ fsub x x = NAN ∧ fadd x (fneg x) = NAN) ∧
  (∀ x y : Word, isNaN x = false → isNaN y = false → isNaN (fmul x y) = false →
    signBit (fmul x y) = (signBit x != signBit y)) ∧
  (∀ x y : Word, isNaN x = false → isNaN y = false → isNaN (fdiv x y) = false →
    signBit (fdiv x y) = (signBit x != signBit y)) ∧
  (∀ x y : Word, isZero x = true → isInf y = true → fmul x y = NAN ∧ fmul y x = NAN) ∧
  (∀ x y : Word, isInf x = true → isNaN y = false → isZero y = false →
    isInf (fmul x y) = true ∧ isInf (fmul y x) = true) ∧
  (∀ x y : Word, isFinite x = true → isZero x = false → isZero y = true → isInf (fdiv x y) = true) ∧
  (∀ x y : Word, isZero x = true → isZero y = true → fdiv x y = NAN) ∧
  (∀ x y : Word, isInf x = true → isInf y = true → fdiv x y = NAN) ∧
  (∀ x y : Word, isInf x = true → isFinite y = true → isInf (fdiv x y) = true) ∧
  (∀ x y : Word, isFinite x = true → isInf y = true → isZero (fdiv x y) = true)

/-- R118: an operation on a NaN of any payload and each invalid case is the canonical NaN, and a NaN result is never
any other pattern; a NaN that is only stored and read back keeps its bits. -/
def Obligations.NaNsAreCanonical : Prop :=
  (∀ x y : Word, isNaN x = true ∨ isNaN y = true →
    fadd x y = 0x7FC00000 ∧ fsub x y = 0x7FC00000 ∧ fmul x y = 0x7FC00000 ∧ fdiv x y = 0x7FC00000) ∧
  (∀ x y : Word, (isNaN (fadd x y) = true → fadd x y = 0x7FC00000) ∧ (isNaN (fsub x y) = true → fsub x y = 0x7FC00000) ∧
    (isNaN (fmul x y) = true → fmul x y = 0x7FC00000) ∧ (isNaN (fdiv x y) = true → fdiv x y = 0x7FC00000)) ∧
  (∀ x y : Word, isInf x = true → isInf y = true →
    (signBit x ≠ signBit y → fadd x y = 0x7FC00000) ∧ (signBit x = signBit y → fsub x y = 0x7FC00000) ∧
    fdiv x y = 0x7FC00000) ∧
  (∀ x y : Word, isZero x = true → (isInf y = true → fmul x y = 0x7FC00000 ∧ fmul y x = 0x7FC00000) ∧
    (isZero y = true → fdiv x y = 0x7FC00000)) ∧
  (∀ (v : Word) (s : State), s.rb.widx.toNat < 2 ^ s.build.kRb.val →
    (performAll s [.rbPush v, .rbGet .rb0 1]).responses =
      s.responses ++ [0x0000000000, responseWord 0 false v]) ∧
  (∀ (v : Word) (s : State), s.fdl.ih.widx.toNat < 2 ^ s.build.kFdl.val →
    ∃ r, (performAll s [.fdlProc v, .rbGet .ih 1]).responses = s.responses ++ [r, responseWord 0 false v]) ∧
  (∀ (v : Word) (s : State), (performAll s [.csrWr .fdlWet v, .csrRd .fdlWet]).responses =
      s.responses ++ [0x0000000000, responseWord 0 false v])

/-- R127: the facts A1 to A7. -/
def Obligations.ArithmeticFacts : Prop :=
  (∀ x : Word, fmul ONE x = if isNaN x then NAN else x) ∧
  (∀ x : Word, fmul ZERO x = if isFinite x then (if signBit x then NEG_ZERO else ZERO) else NAN) ∧
  (∀ x : Word, isNaN x = false → x ≠ NEG_ZERO → fadd x ZERO = x) ∧
  (fadd NEG_ZERO ZERO = ZERO) ∧
  (∀ x : Word, isNaN x = false → fadd x NEG_ZERO = x) ∧
  (fsub ONE ZERO = ONE ∧ fsub ONE ONE = ZERO) ∧
  (∀ x : Word, isFinite x = true → fsub x x = ZERO) ∧
  (∀ x : Word, fge x ONE = true → flt x 0x4B800000 = true →
    isFinite (fsub x (u2f (floorU x))) = true ∧
    units (fsub x (u2f (floorU x))) = units x - (floorU x).toNat * 2 ^ 149 ∧
    0 ≤ units (fsub x (u2f (floorU x))) ∧ units (fsub x (u2f (floorU x))) < 2 ^ 149 ∧
    (fsub x (u2f (floorU x)) = ZERO ↔ ∃ n : Int, units x = n * 2 ^ 149)) ∧
  (∀ x y : Word, fmul x y = fmul y x ∧ fadd x y = fadd y x)

/-- R121: the comparisons are the order of the values, the zeros equal, minus infinity below and plus infinity above
every finite value, and false on NaN. A row `(flt, fle, fgt, fge)` gives all four for one pair of operands; with the
clause on finite operands and the one on NaNs the rows cover every pair. -/
def Obligations.ComparisonsOrderValues : Prop :=
  (∀ x y : Word, isFinite x = true → isFinite y = true →
    (flt x y = true ↔ units x < units y) ∧ (fle x y = true ↔ units x ≤ units y) ∧
    (fgt x y = true ↔ units x > units y) ∧ (fge x y = true ↔ units x ≥ units y)) ∧
  ((flt NEG_ZERO ZERO, fle NEG_ZERO ZERO, fgt NEG_ZERO ZERO, fge NEG_ZERO ZERO) = (false, true, false, true) ∧
    (flt ZERO NEG_ZERO, fle ZERO NEG_ZERO, fgt ZERO NEG_ZERO, fge ZERO NEG_ZERO) = (false, true, false, true)) ∧
  (∀ x : Word, isFinite x = true →
    (flt 0xFF800000 x, fle 0xFF800000 x, fgt 0xFF800000 x, fge 0xFF800000 x) = (true, true, false, false) ∧
    (flt x 0xFF800000, fle x 0xFF800000, fgt x 0xFF800000, fge x 0xFF800000) = (false, false, true, true) ∧
    (flt x 0x7F800000, fle x 0x7F800000, fgt x 0x7F800000, fge x 0x7F800000) = (true, true, false, false) ∧
    (flt 0x7F800000 x, fle 0x7F800000 x, fgt 0x7F800000 x, fge 0x7F800000 x) = (false, false, true, true)) ∧
  ((flt 0xFF800000 0x7F800000, fle 0xFF800000 0x7F800000, fgt 0xFF800000 0x7F800000, fge 0xFF800000 0x7F800000) =
      (true, true, false, false) ∧
    (flt 0x7F800000 0xFF800000, fle 0x7F800000 0xFF800000, fgt 0x7F800000 0xFF800000, fge 0x7F800000 0xFF800000) =
      (false, false, true, true) ∧
    (flt 0xFF800000 0xFF800000, fle 0xFF800000 0xFF800000, fgt 0xFF800000 0xFF800000, fge 0xFF800000 0xFF800000) =
      (false, true, false, true) ∧
    (flt 0x7F800000 0x7F800000, fle 0x7F800000 0x7F800000, fgt 0x7F800000 0x7F800000, fge 0x7F800000 0x7F800000) =
      (false, true, false, true)) ∧
  (∀ x y : Word, isNaN x = true ∨ isNaN y = true →
    flt x y = false ∧ fle x y = false ∧ fgt x y = false ∧ fge x y = false)

/-- R123: the selections return an operand bit for bit; on non-NaN operands the minimum and the maximum, the first
operand on a tie; with a NaN the first operand; and so a NaN delay clamps to 1. -/
def Obligations.MinMaxSelectOperands : Prop :=
  (∀ x y : Word, fminSel x y = (if flt y x then y else x) ∧ fmaxSel x y = (if flt x y then y else x)) ∧
  (∀ x y : Word, isNaN x = false → isNaN y = false →
    fle (fminSel x y) x = true ∧ fle (fminSel x y) y = true ∧ fge (fmaxSel x y) x = true ∧ fge (fmaxSel x y) y = true) ∧
  (∀ x y : Word, isNaN x = false → isNaN y = false → fle x y = true → fle y x = true →
    fminSel x y = x ∧ fmaxSel x y = x) ∧
  (∀ x y : Word, isNaN x = true ∨ isNaN y = true → fminSel x y = x ∧ fmaxSel x y = x) ∧
  (∀ (k : Nat) (d : Word), isNaN d = true → clampDelay k d = ONE)

/-- R124: `u2f` rounds to nearest, ties to even; it is exact up to 2^24 and wherever 24 significant bits suffice; and
`u2f(0) = +0`. -/
def Obligations.IntegerConversionRoundsToNearestEven : Prop :=
  (∀ u : Word, RoundsTo (u.toNat * 2 ^ 149) 1 (u2f u)) ∧
  (∀ u : Word, u.toNat ≤ 2 ^ 24 → units (u2f u) = u.toNat * 2 ^ 149) ∧
  (∀ (u : Word) (m j : Nat), m < 2 ^ 24 → u.toNat = m * 2 ^ j → units (u2f u) = u.toNat * 2 ^ 149) ∧
  u2f 0 = 0x00000000

/-- R125: on `1 <= x <= 2^24` `floor_u` is the largest integer not above `x`, and the clamped delay is in that domain. -/
def Obligations.FloorIsLargestIntegerBelow : Prop :=
  (∀ x : Word, fge x ONE = true → fle x 0x4B800000 = true →
    (floorU x).toNat * 2 ^ 149 ≤ units x ∧ units x < ((floorU x).toNat + 1) * 2 ^ 149) ∧
  (∀ (k : Nat) (d : Word), 2 ≤ k → k ≤ 24 → fge (clampDelay k d) ONE = true ∧ fle (clampDelay k d) 0x4B7FFFFE = true)

/-- R126: the build's sine has the properties S2 to S4 (S1 is that it is a function); and the model's form of it, its
choice (log entry 4), leaves out no function that has them. -/
def Obligations.SineHasItsProperties : Prop :=
  SineProps SIN ∧ (∀ f : Word → Word, SineProps f → ∀ x, sineFrom f x = f x)
end

