-- ==== Sys2Proof/Laws/Numerics.lean ====
section
/-!
SUPPORT. The laws of the binary32 primitives that later proofs cite instead of unfolding them: the fields of a
packed pattern, what `roundMag` does (exact on representable values, monotone, bounded), and what class each
operation's result has.
-/

namespace Sys2Proof.Machine

/-! ### Fields -/

/-- The units of a magnitude whose low 31 bits are `m` (R115). -/
def unitsOfMag (m : Nat) : Nat := if m / 2 ^ 23 = 0 then m % 2 ^ 23 else (2 ^ 23 + m % 2 ^ 23) * 2 ^ (m / 2 ^ 23 - 1)

theorem magField_lt (x : Word) : magField x < 2 ^ 31 := (x.extractLsb' 0 31).isLt

theorem magField_eq (x : Word) : magField x = x.toNat % 2 ^ 31 := by
  simp [magField, BitVec.extractLsb'_toNat]

theorem expField_eq (x : Word) : expField x = magField x / 2 ^ 23 := by
  rw [magField_eq]
  simp only [expField, BitVec.extractLsb'_toNat, Nat.shiftRight_eq_div_pow]
  have := x.isLt
  omega

theorem fracField_eq (x : Word) : fracField x = magField x % 2 ^ 23 := by
  rw [magField_eq]
  simp only [fracField, BitVec.extractLsb'_toNat, Nat.shiftRight_eq_div_pow]
  omega

theorem magUnits_eq (x : Word) : magUnits x = unitsOfMag (magField x) := by
  simp only [magUnits, unitsOfMag, expField_eq, fracField_eq]

theorem signBit_eq (x : Word) : signBit x = decide (2 ^ 31 ≤ x.toNat) := by
  simp [signBit, BitVec.msb_eq_decide]

theorem toNat_eq (x : Word) : x.toNat = (if signBit x then 2 ^ 31 else 0) + magField x := by
  rw [signBit_eq, magField_eq]
  have := x.isLt
  by_cases h : 2 ^ 31 ≤ x.toNat
  · simp only [h, decide_true, if_true]; omega
  · simp only [h, decide_false, Bool.false_eq_true, if_false]; omega

theorem toNat_pack (s : Bool) {m : Nat} (hm : m < 2 ^ 31) : (pack s m).toNat = (if s then 2 ^ 31 else 0) + m := by
  have h : (pack s m).toNat = (BitVec.ofBool s).toNat <<< 31 ||| (BitVec.ofNat 31 m).toNat := BitVec.toNat_append _ _
  rw [h, ← Nat.shiftLeft_add_eq_or_of_lt (BitVec.ofNat 31 m).isLt, BitVec.toNat_ofNat, Nat.mod_eq_of_lt hm,
    Nat.shiftLeft_eq]
  cases s <;> simp

@[simp] theorem signBit_pack (s : Bool) {m : Nat} (hm : m < 2 ^ 31) : signBit (pack s m) = s := by
  rw [signBit_eq, toNat_pack s hm]
  cases s
  · simpa using hm
  · simp

@[simp] theorem magField_pack (s : Bool) {m : Nat} (hm : m < 2 ^ 31) : magField (pack s m) = m := by
  rw [magField_eq, toNat_pack s hm]
  cases s
  · simpa using Nat.mod_eq_of_lt hm
  · simpa using Nat.mod_eq_of_lt hm

/-- A pattern is its sign and its magnitude. -/
theorem word_ext {x y : Word} (hs : signBit x = signBit y) (hm : magField x = magField y) : x = y :=
  BitVec.eq_of_toNat_eq (by rw [toNat_eq x, toNat_eq y, hs, hm])

theorem pack_self (x : Word) : pack (signBit x) (magField x) = x :=
  word_ext (signBit_pack _ (magField_lt x)) (magField_pack _ (magField_lt x))

theorem signBit_fneg (x : Word) : signBit (fneg x) = !signBit x := by
  have h : NEG_ZERO.msb = true := by decide
  simp [signBit, fneg, BitVec.msb_xor, h]

theorem magField_fneg (x : Word) : magField (fneg x) = magField x := by
  have h : NEG_ZERO.toNat = 2 ^ 31 := by decide
  rw [magField_eq, magField_eq, fneg, BitVec.toNat_xor, h, Nat.xor_mod_two_pow]
  simp

/-! ### Classes, by magnitude -/

theorem isFinite_iff (x : Word) : isFinite x = true ↔ magField x < 0x7F800000 := by
  have := magField_lt x
  simp only [isFinite, expField_eq, decide_eq_true_iff, ne_eq]
  omega

theorem isInf_iff (x : Word) : isInf x = true ↔ magField x = 0x7F800000 := by
  have := magField_lt x
  simp only [isInf, expField_eq, fracField_eq, Bool.and_eq_true, decide_eq_true_iff]
  omega

theorem isNaN_iff (x : Word) : isNaN x = true ↔ 0x7F800000 < magField x := by
  have := magField_lt x
  simp only [isNaN, expField_eq, fracField_eq, Bool.and_eq_true, decide_eq_true_iff, ne_eq]
  omega

theorem isZero_iff (x : Word) : isZero x = true ↔ magField x = 0 := by simp [isZero]

theorem isNaN_of_finite {x : Word} (h : isFinite x = true) : isNaN x = false := by
  rw [isFinite_iff] at h
  rw [Bool.eq_false_iff, ne_eq, isNaN_iff]
  omega

theorem isInf_of_finite {x : Word} (h : isFinite x = true) : isInf x = false := by
  rw [isFinite_iff] at h
  rw [Bool.eq_false_iff, ne_eq, isInf_iff]
  omega

/-- Every pattern is finite, an infinity or a NaN, and only one of them (R115). -/
theorem class_cases (x : Word) : isFinite x = true ∨ isInf x = true ∨ isNaN x = true := by
  rw [isFinite_iff, isInf_iff, isNaN_iff]
  omega

/-! ### The order of units is the order of magnitudes -/

theorem unitsOfMag_small {m : Nat} (h : m < 2 ^ 24) : unitsOfMag m = m := by
  unfold unitsOfMag
  split
  · omega
  · have : m / 2 ^ 23 - 1 = 0 := by omega
    rw [this]
    omega

/-- A magnitude with last place `2^k` units. -/
theorem unitsOfMag_of_shift {k s : Nat} (h1 : 2 ^ 23 ≤ s) (h2 : s < 2 ^ 24) :
    unitsOfMag (k * 2 ^ 23 + s) = s * 2 ^ k := by
  unfold unitsOfMag
  have hd : (k * 2 ^ 23 + s) / 2 ^ 23 = k + 1 := by omega
  have hm : (k * 2 ^ 23 + s) % 2 ^ 23 = s - 2 ^ 23 := by omega
  rw [hd, hm, if_neg (by omega), Nat.add_sub_cancel, show 2 ^ 23 + (s - 2 ^ 23) = s by omega]

/-- Every magnitude from `2^23` on is `k * 2^23 + s` with a 24-bit significand `s`. -/
theorem exists_shift {m : Nat} (h : 2 ^ 23 ≤ m) : ∃ k s, m = k * 2 ^ 23 + s ∧ 2 ^ 23 ≤ s ∧ s < 2 ^ 24 :=
  ⟨m / 2 ^ 23 - 1, m % 2 ^ 23 + 2 ^ 23, by omega, by omega, by omega⟩

theorem unitsOfMag_succ (m : Nat) : unitsOfMag m < unitsOfMag (m + 1) := by
  by_cases h : m + 1 < 2 ^ 24
  · rw [unitsOfMag_small h, unitsOfMag_small (by omega)]
    omega
  · obtain ⟨k, s, rfl, h1, h2⟩ := exists_shift (m := m) (by omega)
    by_cases hs : s + 1 < 2 ^ 24
    · rw [Nat.add_assoc, unitsOfMag_of_shift h1 h2, unitsOfMag_of_shift (by omega) hs]
      exact Nat.mul_lt_mul_of_pos_right (by omega) (Nat.two_pow_pos k)
    · have : k * 2 ^ 23 + s + 1 = (k + 1) * 2 ^ 23 + 2 ^ 23 := by omega
      rw [this, unitsOfMag_of_shift h1 h2, unitsOfMag_of_shift (by omega) (by omega), Nat.pow_succ]
      have hk := Nat.two_pow_pos k
      calc s * 2 ^ k < 2 ^ 24 * 2 ^ k := Nat.mul_lt_mul_of_pos_right h2 hk
        _ = 2 ^ 23 * (2 ^ k * 2) := by ring

theorem unitsOfMag_strictMono : StrictMono unitsOfMag := strictMono_nat_of_lt_succ unitsOfMag_succ

theorem unitsOfMag_lt {a b : Nat} : unitsOfMag a < unitsOfMag b ↔ a < b := unitsOfMag_strictMono.lt_iff_lt

theorem unitsOfMag_le {a b : Nat} : unitsOfMag a ≤ unitsOfMag b ↔ a ≤ b := unitsOfMag_strictMono.le_iff_le

theorem unitsOfMag_inj {a b : Nat} : unitsOfMag a = unitsOfMag b ↔ a = b := unitsOfMag_strictMono.injective.eq_iff

@[simp] theorem unitsOfMag_zero : unitsOfMag 0 = 0 := rfl

/-- A zero is a magnitude of no units. -/
theorem magUnits_eq_zero (x : Word) : magUnits x = 0 ↔ isZero x = true := by
  rw [magUnits_eq, isZero_iff]
  exact unitsOfMag_inj (b := 0)

/-! ### Rounding -/

/-- What rounding to an integer does: at most half away, and even on a tie. -/
theorem roundDiv_spec (n : Nat) {d : Nat} (hd : 0 < d) :
    2 * n ≤ d * (2 * roundDiv n d + 1) ∧ d * (2 * roundDiv n d) ≤ 2 * n + d ∧
      (2 * n = d * (2 * roundDiv n d + 1) → roundDiv n d % 2 = 0) ∧
      (d * (2 * roundDiv n d) = 2 * n + d → roundDiv n d % 2 = 0) := by
  have hdiv := Nat.div_add_mod n d
  have hlt := Nat.mod_lt n hd
  generalize hq : n / d = q at *
  generalize hr : n % d = r at *
  have hround : roundDiv n d = if d < 2 * r then q + 1 else if 2 * r = d then q + q % 2 else q := by
    simp only [roundDiv, hq, hr]
  have e0 : d * (2 * q) = 2 * (d * q) := by ring
  have e1 : d * (2 * (q + 1)) = 2 * (d * q) + 2 * d := by ring
  have e2 : d * (2 * q + 1) = 2 * (d * q) + d := by ring
  have e3 : d * (2 * (q + 1) + 1) = 2 * (d * q) + 3 * d := by ring
  rw [hround]
  split
  · rw [e1, e3]; omega
  · split
    · rcases Nat.mod_two_eq_zero_or_one q with h | h <;> rw [h]
      · simp only [Nat.add_zero, e0, e2]; omega
      · rw [e1, e3]; omega
    · rw [e0, e2]; omega

theorem roundDiv_mono {n d n' d' : Nat} (hd : 0 < d) (hd' : 0 < d') (h : n * d' ≤ n' * d) :
    roundDiv n d ≤ roundDiv n' d' := by
  obtain ⟨-, hlo, -, heven⟩ := roundDiv_spec n hd
  obtain ⟨hhi', -, heven', -⟩ := roundDiv_spec n' hd'
  generalize roundDiv n d = R at *
  generalize roundDiv n' d' = R' at *
  by_contra hcon
  have hR : R' + 1 ≤ R := by omega
  obtain ⟨c, rfl⟩ := Nat.exists_eq_add_of_le hR
  have hdd : 0 < d * d' := Nat.mul_pos hd hd'
  have h1 : d * d' * (2 * (R' + 1 + c)) ≤ 2 * (n * d') + d * d' := by nlinarith
  have h2 : 2 * (n' * d) ≤ d * d' * (2 * R' + 1) := by nlinarith
  have h3 : d * d' * (2 * (R' + 1 + c)) = d * d' * (2 * R' + 1) + d * d' + 2 * (d * d' * c) := by ring
  have hc : d * d' * c = 0 := by omega
  have hc0 : c = 0 := by
    rcases Nat.mul_eq_zero.1 hc with h | h
    · omega
    · exact h
  subst hc0
  have t1 : 2 * (n * d') = d * d' * (2 * R' + 1) := by omega
  have t2 : 2 * (n' * d) = d * d' * (2 * R' + 1) := by omega
  have e1 : d * (2 * (R' + 1 + 0)) = 2 * n + d :=
    Nat.eq_of_mul_eq_mul_right hd' (by linear_combination -t1)
  have e2 : 2 * n' = d' * (2 * R' + 1) := Nat.eq_of_mul_eq_mul_right hd (by nlinarith)
  have := heven e1
  have := heven' e2
  omega

/-- An exact quotient is not changed. -/
theorem roundDiv_mul (a : Nat) {d : Nat} (hd : 0 < d) : roundDiv (a * d) d = a := by
  simp [roundDiv, Nat.mul_div_cancel _ hd]
  omega

theorem ulpShift_small {q : Nat} (h : q < 2 ^ 24) : ulpShift q = 0 := by
  unfold ulpShift
  rcases Nat.eq_zero_or_pos q with rfl | hq
  · rfl
  · have := (Nat.log2_lt (by omega)).2 h
    omega

theorem ulpShift_of_shift {k q : Nat} (h1 : 2 ^ (k + 23) ≤ q) (h2 : q < 2 ^ (k + 24)) : ulpShift q = k := by
  have hq : q ≠ 0 := by have := Nat.two_pow_pos (k + 23); omega
  have hl : Nat.log2 q = k + 23 := by
    have a := (Nat.log2_lt hq).2 h2
    have b := (Nat.le_log2 hq).2 h1
    omega
  simp [ulpShift, hl]

/-- The last place leaves at most 24 bits, and exactly 24 once it lies above 2^-149. -/
theorem ulpShift_spec (q : Nat) :
    q < 2 ^ (ulpShift q + 24) ∧ (ulpShift q ≠ 0 → 2 ^ (ulpShift q + 23) ≤ q) := by
  by_cases h : q < 2 ^ 24
  · rw [ulpShift_small h]; exact ⟨h, fun h => absurd rfl h⟩
  · have hq : q ≠ 0 := by omega
    have h24 : 24 ≤ Nat.log2 q := (Nat.le_log2 hq).2 (by omega)
    have e : ulpShift q + 23 = Nat.log2 q := by unfold ulpShift; omega
    refine ⟨?_, fun _ => ?_⟩
    · rw [show ulpShift q + 24 = Nat.log2 q + 1 by omega]
      exact (Nat.log2_lt hq).1 (Nat.lt_succ_self _)
    · rw [e]; exact (Nat.le_log2 hq).1 le_rfl

theorem ulpShift_mono {a b : Nat} (h : a ≤ b) : ulpShift a ≤ ulpShift b := by
  have ha := ulpShift_spec a
  have hb := ulpShift_spec b
  by_contra hc
  have h1 := ha.2 (by omega)
  have h2 : 2 ^ (ulpShift b + 24) ≤ 2 ^ (ulpShift a + 23) := Nat.pow_le_pow_right (by decide) (by omega)
  omega

theorem roundMag_le (num den : Nat) : roundMag num den ≤ 0x7F800000 := by
  unfold roundMag
  exact Nat.min_le_right _ _

theorem roundMag_lt (num den : Nat) : roundMag num den < 2 ^ 31 :=
  lt_of_le_of_lt (roundMag_le num den) (by decide)

/-- The significand before the clamp: at most 24 bits and a carry, and at least `2^23` above the lowest binade. -/
theorem significand_bounds (num : Nat) {den : Nat} (hd : 0 < den) :
    roundDiv num (den * 2 ^ ulpShift (num / den)) ≤ 2 ^ 24 ∧
      (ulpShift (num / den) ≠ 0 → 2 ^ 23 ≤ roundDiv num (den * 2 ^ ulpShift (num / den))) := by
  obtain ⟨hhi, hlo⟩ := ulpShift_spec (num / den)
  generalize ulpShift (num / den) = k at *
  have hk : 0 < 2 ^ k := Nat.two_pow_pos k
  have hdk : 0 < den * 2 ^ k := Nat.mul_pos hd hk
  have hdiv := Nat.div_add_mod num den
  have hmod := Nat.mod_lt num hd
  constructor
  · rw [← roundDiv_mul (2 ^ 24) hdk]
    refine roundDiv_mono hdk hdk (Nat.mul_le_mul_right _ ?_)
    have : den * (num / den + 1) ≤ den * 2 ^ (k + 24) := Nat.mul_le_mul_left _ hhi
    have e : 2 ^ 24 * (den * 2 ^ k) = den * 2 ^ (k + 24) := by rw [Nat.pow_add]; ring
    rw [Nat.mul_add] at this
    omega
  · intro h
    have hl := hlo h
    rw [← roundDiv_mul (2 ^ 23) hdk]
    refine roundDiv_mono hdk hdk (Nat.mul_le_mul_right _ ?_)
    have : den * 2 ^ (k + 23) ≤ den * (num / den) := Nat.mul_le_mul_left _ hl
    have e : 2 ^ 23 * (den * 2 ^ k) = den * 2 ^ (k + 23) := by rw [Nat.pow_add]; ring
    omega

/-- Rounding is monotone in the exact value. -/
theorem roundMag_mono {n d n' d' : Nat} (hd : 0 < d) (hd' : 0 < d') (h : n * d' ≤ n' * d) :
    roundMag n d ≤ roundMag n' d' := by
  have hq : n / d ≤ n' / d' := by
    rw [Nat.le_div_iff_mul_le hd']
    have h1 : n / d * d ≤ n := Nat.div_mul_le_self n d
    exact Nat.le_of_mul_le_mul_right (by nlinarith) hd
  have hk := ulpShift_mono hq
  have b := significand_bounds n hd
  have b' := significand_bounds n' hd'
  unfold roundMag
  refine min_le_min_right _ ?_
  rcases Nat.lt_or_eq_of_le hk with hlt | heq
  · have := b'.2 (by omega)
    have := b.1
    have : (ulpShift (n / d) + 1) * 2 ^ 23 ≤ ulpShift (n' / d') * 2 ^ 23 := Nat.mul_le_mul_right _ hlt
    omega
  · simp only [heq]
    refine Nat.add_le_add_left (roundDiv_mono ?_ ?_ ?_) _
    · exact Nat.mul_pos hd (Nat.two_pow_pos _)
    · exact Nat.mul_pos hd' (Nat.two_pow_pos _)
    · calc n * (d' * 2 ^ ulpShift (n' / d')) = n * d' * 2 ^ ulpShift (n' / d') := by ring
        _ ≤ n' * d * 2 ^ ulpShift (n' / d') := Nat.mul_le_mul_right _ h
        _ = n' * (d * 2 ^ ulpShift (n' / d')) := by ring

/-- A value that binary32 holds is not changed by rounding. -/
theorem roundMag_exact {m den : Nat} (hd : 0 < den) (hm : m ≤ 0x7F800000) : roundMag (unitsOfMag m * den) den = m := by
  unfold roundMag
  rw [Nat.mul_div_cancel _ hd]
  by_cases h : m < 2 ^ 24
  · rw [unitsOfMag_small h, ulpShift_small h]
    simp only [Nat.pow_zero, Nat.mul_one, roundDiv_mul _ hd]
    omega
  · obtain ⟨k, s, rfl, h1, h2⟩ := exists_shift (m := m) (by omega)
    have hk : ulpShift (unitsOfMag (k * 2 ^ 23 + s)) = k := by
      rw [unitsOfMag_of_shift h1 h2]
      refine ulpShift_of_shift ?_ ?_
      · rw [Nat.pow_add, Nat.mul_comm]; exact Nat.mul_le_mul_right _ h1
      · rw [Nat.pow_add, Nat.mul_comm (2 ^ k)]; exact Nat.mul_lt_mul_of_pos_right h2 (Nat.two_pow_pos k)
    simp only [hk]
    have e : unitsOfMag (k * 2 ^ 23 + s) * den = s * (den * 2 ^ k) := by
      rw [unitsOfMag_of_shift h1 h2]; ring
    rw [e, roundDiv_mul _ (Nat.mul_pos hd (Nat.two_pow_pos k))]
    omega

@[simp] theorem roundMag_zero (den : Nat) : roundMag 0 den = 0 := by
  simp [roundMag, ulpShift, roundDiv, Nat.log2]

end Sys2Proof.Machine
end

