-- ==== Sys2Proof/Laws/Arithmetic.lean ====
section
/-!
SUPPORT. The four operations by the class of their operands (R117, R118), the units of a packed pattern, and what
`roundMag` lies between: the midpoints to its two neighbours.
-/

namespace Sys2Proof.Machine

/-! ### Units -/

theorem units_eq (x : Word) :
    units x = if signBit x then -(unitsOfMag (magField x) : Int) else (unitsOfMag (magField x) : Int) := by
  simp only [units, magUnits_eq]

theorem units_pack (s : Bool) {m : Nat} (hm : m < 2 ^ 31) :
    units (pack s m) = if s then -(unitsOfMag m : Int) else (unitsOfMag m : Int) := by
  rw [units_eq, signBit_pack s hm, magField_pack s hm]

theorem natAbs_units (x : Word) : (units x).natAbs = unitsOfMag (magField x) := by
  rw [units_eq]
  split <;> simp

theorem units_eq_zero (x : Word) : units x = 0 ↔ isZero x = true := by
  rw [← Int.natAbs_eq_zero, natAbs_units, ← magUnits_eq, magUnits_eq_zero]

theorem units_neg_iff (x : Word) : units x < 0 ↔ signBit x = true ∧ isZero x = false := by
  have h := units_eq_zero x
  rw [← Bool.not_eq_true, ← h, units_eq]
  cases signBit x
  · simp
  · simp only [if_true, true_and]
    omega

theorem units_fneg (x : Word) : units (fneg x) = -units x := by
  rw [units_eq, units_eq, signBit_fneg, magField_fneg]
  cases signBit x <;> simp

theorem isFinite_fneg (x : Word) : isFinite (fneg x) = isFinite x := by
  rw [Bool.eq_iff_iff, isFinite_iff, isFinite_iff, magField_fneg]

theorem isInf_fneg (x : Word) : isInf (fneg x) = isInf x := by
  rw [Bool.eq_iff_iff, isInf_iff, isInf_iff, magField_fneg]

theorem isNaN_fneg (x : Word) : isNaN (fneg x) = isNaN x := by
  rw [Bool.eq_iff_iff, isNaN_iff, isNaN_iff, magField_fneg]

theorem isZero_fneg (x : Word) : isZero (fneg x) = isZero x := by
  rw [Bool.eq_iff_iff, isZero_iff, isZero_iff, magField_fneg]

/-- Two values that are not zero are one pattern if their units agree. -/
theorem eq_of_units {x y : Word} (h : units x = units y) (h0 : units x ≠ 0) : x = y := by
  have hm : magField x = magField y := by
    rw [← unitsOfMag_inj, ← natAbs_units, ← natAbs_units, h]
  refine word_ext ?_ hm
  have hx : isZero x = false := by rw [← Bool.not_eq_true, ← units_eq_zero]; exact h0
  have hy : isZero y = false := by rw [← Bool.not_eq_true, ← units_eq_zero, ← h]; exact h0
  have h1 := units_neg_iff x
  have h2 := units_neg_iff y
  rw [h, h2, hx, hy] at h1
  rw [Bool.eq_iff_iff]
  exact (and_iff_left rfl).symm.trans (h1.symm.trans (and_iff_left rfl))

/-! ### Classes of a rounded pattern -/

theorem isNaN_pack {m : Nat} (s : Bool) (hm : m ≤ 0x7F800000) : isNaN (pack s m) = false := by
  rw [← Bool.not_eq_true, isNaN_iff, magField_pack s (by omega)]
  omega

theorem isFinite_pack {m : Nat} (s : Bool) (hm : m ≤ 0x7F800000) : isFinite (pack s m) = true ↔ m < 0x7F800000 := by
  rw [isFinite_iff, magField_pack s (by omega)]

theorem isInf_pack {m : Nat} (s : Bool) (hm : m ≤ 0x7F800000) : isInf (pack s m) = true ↔ m = 0x7F800000 := by
  rw [isInf_iff, magField_pack s (by omega)]

/-- An exact value that binary32 holds packs to that value. -/
theorem pack_exact {x : Word} (hx : isFinite x = true) {den : Nat} (hd : 0 < den) :
    pack (signBit x) (roundMag (magUnits x * den) den) = x := by
  rw [isFinite_iff] at hx
  rw [magUnits_eq, roundMag_exact hd (by omega), pack_self]

/-! ### The operations by class -/

theorem fadd_nan {x y : Word} (h : isNaN x = true ∨ isNaN y = true) : fadd x y = NAN := by
  unfold fadd
  rw [if_pos (by simpa using h)]

theorem fmul_nan {x y : Word} (h : isNaN x = true ∨ isNaN y = true) : fmul x y = NAN := by
  unfold fmul
  rw [if_pos (by simpa using h)]

theorem fdiv_nan {x y : Word} (h : isNaN x = true ∨ isNaN y = true) : fdiv x y = NAN := by
  unfold fdiv
  rw [if_pos (by simpa using h)]

theorem fsub_nan {x y : Word} (h : isNaN x = true ∨ isNaN y = true) : fsub x y = NAN :=
  fadd_nan (by rwa [isNaN_fneg])

/-- The sum of two finite values. -/
theorem fadd_finite {x y : Word} (hx : isFinite x = true) (hy : isFinite y = true) :
    fadd x y = if units x + units y = 0 then (if signBit x && signBit y then NEG_ZERO else ZERO)
      else pack (decide (units x + units y < 0)) (roundMag (units x + units y).natAbs 1) := by
  simp [fadd, isNaN_of_finite hx, isNaN_of_finite hy, isInf_of_finite hx, isInf_of_finite hy]

/-- The product of two finite values. -/
theorem fmul_finite {x y : Word} (hx : isFinite x = true) (hy : isFinite y = true) :
    fmul x y = pack (xorSign x y) (roundMag (magUnits x * magUnits y) (2 ^ 149)) := by
  simp [fmul, isNaN_of_finite hx, isNaN_of_finite hy, isInf_of_finite hx, isInf_of_finite hy]

/-- The quotient of two finite values, the divisor not a zero. -/
theorem fdiv_finite {x y : Word} (hx : isFinite x = true) (hy : isFinite y = true) (h0 : isZero y = false) :
    fdiv x y = pack (xorSign x y) (roundMag (magUnits x * 2 ^ 149) (magUnits y)) := by
  simp [fdiv, isNaN_of_finite hx, isNaN_of_finite hy, isInf_of_finite hx, isInf_of_finite hy, h0]

/-- A sum that binary32 holds and that is not zero is that value. -/
theorem fadd_exact {x y z : Word} (hx : isFinite x = true) (hy : isFinite y = true) (hz : isFinite z = true)
    (h : units x + units y = units z) (h0 : units z ≠ 0) : fadd x y = z := by
  rw [fadd_finite hx hy, h, if_neg h0, natAbs_units, ← Nat.mul_one (unitsOfMag _), roundMag_exact (by decide)
    (by rw [isFinite_iff] at hz; omega)]
  have : decide (units z < 0) = signBit z := by
    rw [Bool.eq_iff_iff, decide_eq_true_iff, units_neg_iff, ← Bool.not_eq_true, ← units_eq_zero]
    simp [h0]
  rw [this, pack_self]

/-! ### Nearest -/

/-- The pattern `k * 2^23 + s` stands for `s * 2^k`, also where `s` carries into the next binade. -/
theorem unitsOfMag_shift {k s : Nat} (h1 : k = 0 ∨ 2 ^ 23 ≤ s) (h2 : s ≤ 2 ^ 24) :
    unitsOfMag (k * 2 ^ 23 + s) = s * 2 ^ k := by
  rcases Nat.lt_or_ge s (2 ^ 23) with h | h
  · have hk : k = 0 := by omega
    subst hk
    rw [Nat.zero_mul, Nat.zero_add, unitsOfMag_small (by omega), Nat.pow_zero, Nat.mul_one]
  · rcases Nat.lt_or_eq_of_le h2 with h' | rfl
    · exact unitsOfMag_of_shift h h'
    · rw [show k * 2 ^ 23 + 2 ^ 24 = (k + 1) * 2 ^ 23 + 2 ^ 23 by omega,
        unitsOfMag_of_shift (by omega) (by omega), Nat.pow_succ]
      ring

/-- Every `m * 2^j` units with `m` of at most 24 bits, up to the largest binade, is a finite value. -/
theorem exists_finite {m j : Nat} (hm : m < 2 ^ 24) (hj : j ≤ 253) :
    ∃ z : Word, isFinite z = true ∧ signBit z = false ∧ units z = (m * 2 ^ j : Nat) := by
  have key : ∀ n, n < 0x7F800000 → unitsOfMag n = m * 2 ^ j →
      ∃ z : Word, isFinite z = true ∧ signBit z = false ∧ units z = (m * 2 ^ j : Nat) := fun n hn h =>
    ⟨pack false n, (isFinite_pack _ (by omega)).2 hn, signBit_pack _ (by omega), by
      rw [units_pack _ (by omega), h]; rfl⟩
  have hU : ∀ l, m * 2 ^ l < 2 ^ 24 → l ≤ j → (j = l ∨ 2 ^ 23 ≤ m * 2 ^ l) →
      unitsOfMag ((j - l) * 2 ^ 23 + m * 2 ^ l) = m * 2 ^ j := fun l h1 h2 h3 => by
    rw [unitsOfMag_shift (by omega) (by omega), Nat.mul_assoc, ← Nat.pow_add, Nat.add_sub_cancel' h2]
  by_cases h0 : m = 0
  · exact key 0 (by decide) (by simp [h0])
  · have hl : Nat.log2 m < 24 := (Nat.log2_lt h0).2 hm
    have hlo : 2 ^ Nat.log2 m ≤ m := (Nat.le_log2 h0).1 le_rfl
    have hhi : m < 2 ^ (Nat.log2 m + 1) := (Nat.log2_lt h0).1 (Nat.lt_succ_self _)
    generalize Nat.log2 m = l at *
    have hhi' : ∀ i, i ≤ 23 - l → m * 2 ^ i < 2 ^ 24 := fun i hi =>
      calc m * 2 ^ i < 2 ^ (l + 1) * 2 ^ i := Nat.mul_lt_mul_of_pos_right hhi (Nat.two_pow_pos i)
        _ = 2 ^ (l + 1 + i) := (Nat.pow_add ..).symm
        _ ≤ 2 ^ 24 := Nat.pow_le_pow_right (by decide) (by omega)
    rcases Nat.lt_or_ge j (23 - l) with h | h
    · have := hhi' j (by omega)
      exact key (0 * 2 ^ 23 + m * 2 ^ j) (by omega) (by simpa using hU j this le_rfl (.inl rfl))
    · have h1 := hhi' (23 - l) le_rfl
      have h2 : 2 ^ 23 ≤ m * 2 ^ (23 - l) := by
        have := Nat.mul_le_mul_right (2 ^ (23 - l)) hlo
        rwa [← Nat.pow_add, Nat.add_sub_cancel' (by omega)] at this
      exact key _ (by omega) (hU (23 - l) h1 h (.inr h2))

/-- `roundMag` before the clamp at infinity. -/
def roundMagWide (num den : Nat) : Nat :=
  ulpShift (num / den) * 2 ^ 23 + roundDiv num (den * 2 ^ ulpShift (num / den))

theorem roundMag_eq (num den : Nat) : roundMag num den = min (roundMagWide num den) 0x7F800000 := rfl

/-- The exact value lies between the midpoints to the neighbours of the rounded one, and on a midpoint the rounded
pattern is even. -/
theorem roundMagWide_nearest (num : Nat) {den : Nat} (hd : 0 < den) :
    2 * num ≤ (unitsOfMag (roundMagWide num den) + unitsOfMag (roundMagWide num den + 1)) * den ∧
    (2 * num = (unitsOfMag (roundMagWide num den) + unitsOfMag (roundMagWide num den + 1)) * den →
      roundMagWide num den % 2 = 0) ∧
    (∀ m, m + 1 = roundMagWide num den → (unitsOfMag m + unitsOfMag (m + 1)) * den ≤ 2 * num ∧
      ((unitsOfMag m + unitsOfMag (m + 1)) * den = 2 * num → roundMagWide num den % 2 = 0)) := by
  obtain ⟨hs1, hs2⟩ := significand_bounds num hd
  have hlow := (ulpShift_spec (num / den)).2
  unfold roundMagWide
  generalize ulpShift (num / den) = k at *
  have hk : 0 < 2 ^ k := Nat.two_pow_pos k
  obtain ⟨h1, h2, h3, h4⟩ := roundDiv_spec num (Nat.mul_pos hd hk)
  generalize roundDiv num (den * 2 ^ k) = s at *
  have hU : unitsOfMag (k * 2 ^ 23 + s) = s * 2 ^ k := unitsOfMag_shift (by omega) hs1
  have hpar : (k * 2 ^ 23 + s) % 2 = s % 2 := by omega
  have e1 : den * 2 ^ k * (2 * s + 1) = (s * 2 ^ k + (s + 1) * 2 ^ k) * den := by ring
  rw [hpar, hU]
  refine ⟨?_, ?_, fun m hm => ?_⟩
  · refine h1.trans (e1 ▸ Nat.mul_le_mul_right _ (Nat.add_le_add_left ?_ _))
    rcases Nat.lt_or_ge s (2 ^ 24) with h | h
    · rw [Nat.add_assoc, unitsOfMag_shift (by omega) h]
    · rw [show k * 2 ^ 23 + s + 1 = (k + 1) * 2 ^ 23 + (2 ^ 23 + 1) by omega,
        unitsOfMag_shift (.inr (by omega)) (by omega), Nat.pow_succ, show s = 2 ^ 24 by omega]
      omega
  · intro h
    rcases Nat.lt_or_ge s (2 ^ 24) with hs | hs
    · rw [Nat.add_assoc, unitsOfMag_shift (by omega) hs] at h
      exact h3 (h.trans e1.symm)
    · omega
  · rw [hm, hU]
    by_cases hc : k = 0 ∨ 2 ^ 23 + 1 ≤ s
    · have hpos : 1 ≤ s := by omega
      have hm' : m = k * 2 ^ 23 + (s - 1) := by omega
      rw [hm', unitsOfMag_shift (by omega) (by omega)]
      obtain ⟨r, rfl⟩ := Nat.exists_eq_add_of_le' hpos
      rw [Nat.add_sub_cancel]
      have e : (r * 2 ^ k + (r + 1) * 2 ^ k) * den + den * 2 ^ k = den * 2 ^ k * (2 * (r + 1)) := by ring
      exact ⟨by omega, fun h => h4 (by omega)⟩
    · refine ⟨?_, fun _ => by omega⟩
      have hlo := hlow (by omega)
      have hs : s = 2 ^ 23 := by omega
      have hUm : unitsOfMag m ≤ s * 2 ^ k := by rw [← hU]; exact unitsOfMag_le.2 (by omega)
      have hnum : den * 2 ^ (k + 23) ≤ num := (Nat.mul_le_mul_left _ hlo).trans (Nat.mul_div_le num den)
      have e : den * 2 ^ (k + 23) = s * 2 ^ k * den := by rw [hs, Nat.pow_add]; ring
      have := Nat.mul_le_mul_right den (Nat.add_le_add_right hUm (s * 2 ^ k))
      rw [Nat.add_mul (s * 2 ^ k)] at this
      omega

end Sys2Proof.Machine
end

