-- ==== Sys2Proof/Laws/Encoding.lean ====
section
/-!
SUPPORT. A command word and its four fields carry the same bits (R81): each is recovered from the other.
-/

namespace Sys2Proof

theorem Fields.toNat_toWord (f : Fields) :
    f.toWord.toNat = f.op.toNat * 2 ^ 68 + f.sel.toNat * 2 ^ 64 + f.a.toNat * 2 ^ 32 + f.b.toNat := by
  have happ : ∀ {m n : Nat} (x : BitVec m) (y : BitVec n), (x ++ y).toNat = x.toNat * 2 ^ n + y.toNat := by
    intro m n x y
    rw [BitVec.toNat_append, ← Nat.shiftLeft_add_eq_or_of_lt y.isLt, Nat.shiftLeft_eq]
  have h : f.toWord.toNat = (f.op ++ f.sel ++ f.a ++ f.b).toNat := rfl
  rw [h, happ, happ, happ]
  ring

theorem Fields.toNat_ofWord (w : CmdWord) :
    (Fields.ofWord w).op.toNat = w.toNat / 2 ^ 68 ∧ (Fields.ofWord w).sel.toNat = w.toNat / 2 ^ 64 % 2 ^ 4 ∧
      (Fields.ofWord w).a.toNat = w.toNat / 2 ^ 32 % 2 ^ 32 ∧ (Fields.ofWord w).b.toNat = w.toNat % 2 ^ 32 := by
  have := w.isLt
  simp only [Fields.ofWord, BitVec.extractLsb'_toNat, Nat.shiftRight_eq_div_pow]
  refine ⟨?_, trivial, trivial, by simp⟩
  omega

/-- The fields of a word made of fields are those fields. -/
theorem Fields.ofWord_toWord (f : Fields) : Fields.ofWord f.toWord = f := by
  obtain ⟨hop, hsel, ha, hb⟩ := Fields.toNat_ofWord f.toWord
  rw [Fields.toNat_toWord] at hop hsel ha hb
  have := f.op.isLt
  have := f.sel.isLt
  have := f.a.isLt
  have := f.b.isLt
  have e : ∀ g : Fields, g.op = f.op → g.sel = f.sel → g.a = f.a → g.b = f.b → g = f := by
    rintro ⟨_, _, _, _⟩ rfl rfl rfl rfl; rfl
  apply e <;> apply BitVec.eq_of_toNat_eq
  · rw [hop]; omega
  · rw [hsel]; omega
  · rw [ha]; omega
  · rw [hb]; omega

/-- A word is the word of its fields. -/
theorem Fields.toWord_ofWord (w : CmdWord) : (Fields.ofWord w).toWord = w := by
  obtain ⟨hop, hsel, ha, hb⟩ := Fields.toNat_ofWord w
  apply BitVec.eq_of_toNat_eq
  rw [Fields.toNat_toWord, hop, hsel, ha, hb]
  omega

/-- A mask and a value given by their fields accept a word field by field (R85). -/
theorem Pattern.accepts_toWord (m v f : Fields) :
    (Pattern.mk m.toWord v.toWord).accepts f.toWord = true ↔
      f.op &&& m.op = v.op ∧ f.sel &&& m.sel = v.sel ∧ f.a &&& m.a = v.a ∧ f.b &&& m.b = v.b := by
  have h : f.toWord &&& m.toWord = (Fields.mk (f.op &&& m.op) (f.sel &&& m.sel) (f.a &&& m.a) (f.b &&& m.b)).toWord := by
    show (_ &&& _ : BitVec (4 + 4 + 32 + 32)) = (_ : BitVec (4 + 4 + 32 + 32))
    simp only [Fields.toWord]
    show ((f.op ++ f.sel ++ f.a ++ f.b) &&& (m.op ++ m.sel ++ m.a ++ m.b) : BitVec (4 + 4 + 32 + 32)) = _
    rw [BitVec.and_append, BitVec.and_append, BitVec.and_append]
  simp only [Pattern.accepts, h, decide_eq_true_iff]
  constructor
  · intro he
    have := congrArg Fields.ofWord he
    rw [Fields.ofWord_toWord, Fields.ofWord_toWord] at this
    rw [← this]
    exact ⟨rfl, rfl, rfl, rfl⟩
  · rintro ⟨h1, h2, h3, h4⟩
    rw [h1, h2, h3, h4]

/-- A must-be-zero check passes exactly on zero. -/
theorem mustBeZero_ok {v : Word} {why : Illegal} {k : Except Illegal Instr} {i : Instr} :
    mustBeZero v why k = .ok i ↔ v = 0 ∧ k = .ok i := by
  unfold mustBeZero
  split <;> simp_all

@[simp] theorem Buffer.ofSel_sel (b : Buffer) : Buffer.ofSel b.sel = some b := by cases b <;> rfl

@[simp] theorem Csr.ofSel_sel (c : Csr) : Csr.ofSel c.sel = c := by cases c <;> rfl

theorem Csr.sel_ofSel : ∀ v : BitVec 4, (Csr.ofSel v).sel = v := by decide

theorem Buffer.sel_of_ofSel : ∀ (v : BitVec 4) (b : Buffer), Buffer.ofSel v = some b → b.sel = v := by
  intro v b h
  unfold Buffer.ofSel at h
  apply BitVec.eq_of_toNat_eq
  split at h <;> simp_all <;> (subst h; rfl)

@[simp] theorem Op.ofBits_bits (o : Op) : Op.ofBits o.bits = some o := by cases o <;> rfl

theorem Op.bits_of_ofBits : ∀ (v : BitVec 4) (o : Op), Op.ofBits v = some o → o.bits = v := by
  intro v o h
  unfold Op.ofBits at h
  apply BitVec.eq_of_toNat_eq
  split at h <;> simp_all <;> (subst h; rfl)

end Sys2Proof
end

