-- ==== Sys2Proof/Laws/State.lean ====
section
/-!
SUPPORT. What each update of the state does to each field: one lemma per update and field, true by unfolding.
-/

namespace Sys2Proof.Machine

variable (s : State)

@[simp] theorem State.setRb_build (b : RingBuf) : (s.setRb b).build = s.build := rfl
@[simp] theorem State.setRb_rb (b : RingBuf) : (s.setRb b).rb = b := rfl
@[simp] theorem State.setRb_fdl (b : RingBuf) : (s.setRb b).fdl = s.fdl := rfl
@[simp] theorem State.setRb_mod (b : RingBuf) : (s.setRb b).mod = s.mod := rfl
@[simp] theorem State.setRb_err (b : RingBuf) : (s.setRb b).err = s.err := rfl
@[simp] theorem State.setRb_inputs (b : RingBuf) : (s.setRb b).inputs = s.inputs := rfl
@[simp] theorem State.setRb_responses (b : RingBuf) : (s.setRb b).responses = s.responses := rfl
@[simp] theorem State.setRb_delivered (b : RingBuf) : (s.setRb b).delivered = s.delivered := rfl

@[simp] theorem State.setFdl_build (u : FdlUnit) : (s.setFdl u).build = s.build := rfl
@[simp] theorem State.setFdl_rb (u : FdlUnit) : (s.setFdl u).rb = s.rb := rfl
@[simp] theorem State.setFdl_fdl (u : FdlUnit) : (s.setFdl u).fdl = u := rfl
@[simp] theorem State.setFdl_mod (u : FdlUnit) : (s.setFdl u).mod = s.mod := rfl
@[simp] theorem State.setFdl_err (u : FdlUnit) : (s.setFdl u).err = s.err := rfl
@[simp] theorem State.setFdl_inputs (u : FdlUnit) : (s.setFdl u).inputs = s.inputs := rfl
@[simp] theorem State.setFdl_responses (u : FdlUnit) : (s.setFdl u).responses = s.responses := rfl
@[simp] theorem State.setFdl_delivered (u : FdlUnit) : (s.setFdl u).delivered = s.delivered := rfl

@[simp] theorem State.setMod_build (u : ModUnit) : (s.setMod u).build = s.build := rfl
@[simp] theorem State.setMod_rb (u : ModUnit) : (s.setMod u).rb = s.rb := rfl
@[simp] theorem State.setMod_fdl (u : ModUnit) : (s.setMod u).fdl = s.fdl := rfl
@[simp] theorem State.setMod_mod (u : ModUnit) : (s.setMod u).mod = u := rfl
@[simp] theorem State.setMod_err (u : ModUnit) : (s.setMod u).err = s.err := rfl
@[simp] theorem State.setMod_inputs (u : ModUnit) : (s.setMod u).inputs = s.inputs := rfl
@[simp] theorem State.setMod_responses (u : ModUnit) : (s.setMod u).responses = s.responses := rfl
@[simp] theorem State.setMod_delivered (u : ModUnit) : (s.setMod u).delivered = s.delivered := rfl

@[simp] theorem State.answer_build (r : RspWord) : (s.answer r).build = s.build := rfl
@[simp] theorem State.answer_rb (r : RspWord) : (s.answer r).rb = s.rb := rfl
@[simp] theorem State.answer_fdl (r : RspWord) : (s.answer r).fdl = s.fdl := rfl
@[simp] theorem State.answer_mod (r : RspWord) : (s.answer r).mod = s.mod := rfl
@[simp] theorem State.answer_err (r : RspWord) : (s.answer r).err = s.err := rfl
@[simp] theorem State.answer_inputs (r : RspWord) : (s.answer r).inputs = s.inputs := rfl
@[simp] theorem State.answer_responses (r : RspWord) : (s.answer r).responses = s.responses ++ [r] := rfl
@[simp] theorem State.answer_delivered (r : RspWord) : (s.answer r).delivered = s.delivered := rfl

@[simp] theorem State.respond_build (d : Word) (l : Bool) : (s.respond d l).build = s.build := rfl
@[simp] theorem State.respond_rb (d : Word) (l : Bool) : (s.respond d l).rb = s.rb := rfl
@[simp] theorem State.respond_fdl (d : Word) (l : Bool) : (s.respond d l).fdl = s.fdl := rfl
@[simp] theorem State.respond_mod (d : Word) (l : Bool) : (s.respond d l).mod = s.mod := rfl
@[simp] theorem State.respond_err (d : Word) (l : Bool) : (s.respond d l).err = s.err := rfl
@[simp] theorem State.respond_inputs (d : Word) (l : Bool) : (s.respond d l).inputs = s.inputs := rfl
@[simp] theorem State.respond_responses (d : Word) (l : Bool) : (s.respond d l).responses = s.responses ++ [responseWord 0 l d] := rfl
@[simp] theorem State.respond_delivered (d : Word) (l : Bool) : (s.respond d l).delivered = s.delivered := rfl

@[simp] theorem State.raise_build (e : ErrCode) : (s.raise e).build = s.build := rfl
@[simp] theorem State.raise_rb (e : ErrCode) : (s.raise e).rb = s.rb := rfl
@[simp] theorem State.raise_fdl (e : ErrCode) : (s.raise e).fdl = s.fdl := rfl
@[simp] theorem State.raise_mod (e : ErrCode) : (s.raise e).mod = s.mod := rfl
@[simp] theorem State.raise_err (e : ErrCode) : (s.raise e).err = s.err.set e := rfl
@[simp] theorem State.raise_inputs (e : ErrCode) : (s.raise e).inputs = s.inputs := rfl
@[simp] theorem State.raise_responses (e : ErrCode) : (s.raise e).responses = s.responses ++ [responseWord e.code false 0] := rfl
@[simp] theorem State.raise_delivered (e : ErrCode) : (s.raise e).delivered = s.delivered := rfl

@[simp] theorem State.present_build (w : CmdWord) : (s.present w).build = s.build := rfl
@[simp] theorem State.present_rb (w : CmdWord) : (s.present w).rb = s.rb := rfl
@[simp] theorem State.present_fdl (w : CmdWord) : (s.present w).fdl = s.fdl := rfl
@[simp] theorem State.present_mod (w : CmdWord) : (s.present w).mod = s.mod := rfl
@[simp] theorem State.present_err (w : CmdWord) : (s.present w).err = s.err := rfl
@[simp] theorem State.present_inputs (w : CmdWord) : (s.present w).inputs = HostEvent.present w :: s.inputs := rfl
@[simp] theorem State.present_responses (w : CmdWord) : (s.present w).responses = s.responses := rfl
@[simp] theorem State.present_delivered (w : CmdWord) : (s.present w).delivered = s.delivered := rfl

@[simp] theorem State.assertReset_build : (s.assertReset).build = s.build := rfl
@[simp] theorem State.assertReset_rb : (s.assertReset).rb = RingBuf.empty := rfl
@[simp] theorem State.assertReset_fdl : (s.assertReset).fdl = FdlUnit.initial 0 := rfl
@[simp] theorem State.assertReset_mod : (s.assertReset).mod = ModUnit.initial .vibrato := rfl
@[simp] theorem State.assertReset_err : (s.assertReset).err = ErrFlags.clear := rfl
@[simp] theorem State.assertReset_inputs : (s.assertReset).inputs = s.inputs := rfl
@[simp] theorem State.assertReset_responses : (s.assertReset).responses = [] := rfl
@[simp] theorem State.assertReset_delivered : (s.assertReset).delivered = s.delivered := rfl

/-- Delivery touches the two response lists only. -/
theorem State.deliver_frame :
    s.deliver.build = s.build ∧ s.deliver.rb = s.rb ∧ s.deliver.fdl = s.fdl ∧ s.deliver.mod = s.mod ∧
      s.deliver.err = s.err ∧ s.deliver.inputs = s.inputs ∧
      s.deliver.delivered ++ s.deliver.responses = s.delivered ++ s.responses := by
  unfold State.deliver
  split <;> simp_all

@[simp] theorem ErrFlags.get_set_same (f : ErrFlags) (e : ErrCode) : (f.set e).get e = true := by
  cases e <;> rfl

theorem ErrFlags.get_set_of_ne (f : ErrFlags) {e e' : ErrCode} (h : e' ≠ e) : (f.set e).get e' = f.get e' := by
  cases e <;> cases e' <;> first | rfl | exact absurd rfl h

end Sys2Proof.Machine
end

