-- ==== Sys2Proof/Laws/Exec.lean ====
section
/-!
SUPPORT. What one command and one step can do, said once: later proofs take these cases instead of unfolding `exec`
or `step`.
-/

namespace Sys2Proof.Machine

/-- No command stops: `exec` is `perform` (R266). -/
theorem exec_eq_perform (i : Instr) (s : State) : exec i s = .next (perform s i) := by
  unfold perform
  cases i <;> rfl

/-- FDL.INIT is an error or a construction (R163, R164). -/
theorem perform_fdlInit (s : State) (d : Word) :
    (∃ e, delayError s d = some e ∧ perform s (.fdlInit d) = s.raise e) ∨
    (delayError s d = none ∧ perform s (.fdlInit d) = (s.setFdl (fdlConstruct d)).respond 0 false) := by
  simp only [perform, exec, execFdlInit]
  split
  · exact .inl ⟨_, by assumption, rfl⟩
  · exact .inr ⟨by assumption, rfl⟩

/-- MOD.PROC is an error or one sample (R181, R182). -/
theorem perform_modProc (s : State) (l : Bool) (x b : Word) :
    (b = 0 ∧ perform s (.modProc l x b) = s.raise .srate) ∨
    (b ≠ 0 ∧ perform s (.modProc l x b) = (s.setMod (s.mod.process s.build.kMod l x (u2f b))).respond
      (s.mod.outputWith SIN s.build.kMod x (u2f b)) (s.mod.records l)) := by
  simp only [perform, exec, execModProc, modProcWith]
  split
  · exact .inl ⟨by assumption, rfl⟩
  · exact .inr ⟨by assumption, rfl⟩

/-- CSR.WR is an error or a store (R221). -/
theorem perform_csrWr (s : State) (c : Csr) (v : Word) :
    (∃ e, writeError s c v = some e ∧ perform s (.csrWr c v) = s.raise e) ∨
    (writeError s c v = none ∧ perform s (.csrWr c v) = (storeCsr s c v).respond 0 false) := by
  simp only [perform, exec, execCsrWr]
  split
  · exact .inl ⟨_, by assumption, rfl⟩
  · exact .inr ⟨by assumption, rfl⟩

/-- Everything one step can do (R6, R83, R87, R253, R290, R291). -/
theorem step_cases (s : State) :
    (s.inputs = [] ∧ step s = .next s) ∨
    (∃ rest, s.inputs = .acceptResponse :: rest ∧ step s = .next ({ s with inputs := rest }.deliver)) ∨
    (∃ rest, s.inputs = .assertReset :: rest ∧ step s = .next ({ s with inputs := rest }.assertReset)) ∨
    (∃ w rest i, s.inputs = .present w :: rest ∧ decode w = .ok i ∧
      step s = .next (perform { s with inputs := rest } i)) ∨
    (∃ w rest why, s.inputs = .present w :: rest ∧ decode w = .error why ∧
      step s = .next ({ s with inputs := rest }.raise .illegal)) := by
  unfold step State.fetch
  match h : s.inputs with
  | [] => exact .inl ⟨rfl, rfl⟩
  | .acceptResponse :: rest => exact .inr (.inl ⟨rest, rfl, rfl⟩)
  | .assertReset :: rest => exact .inr (.inr (.inl ⟨rest, rfl, rfl⟩))
  | .present w :: rest =>
    match hd : decode w with
    | .ok i => exact .inr (.inr (.inr (.inl ⟨w, rest, i, rfl, hd, by simp only [hd, exec_eq_perform]⟩)))
    | .error why => exact .inr (.inr (.inr (.inr ⟨w, rest, why, rfl, hd, by simp only [hd]⟩)))

end Sys2Proof.Machine
end

