-- ==== Sys2Proof/Laws/Flags.lean ====
section
/-!
SUPPORT. The fields of a response word (R82), and when the checks on an offered value pass (R164, R224).
-/

namespace Sys2Proof.Machine

theorem toNat_responseWord (e : BitVec 4) (l : Bool) (d : Word) :
    (responseWord e l d).toNat = e.toNat * 2 ^ 36 + (flagBit l).toNat * 2 ^ 32 + d.toNat := by
  have happ : ∀ {m n : Nat} (x : BitVec m) (y : BitVec n), (x ++ y).toNat = x.toNat * 2 ^ n + y.toNat := by
    intro m n x y
    rw [BitVec.toNat_append, ← Nat.shiftLeft_add_eq_or_of_lt y.isLt, Nat.shiftLeft_eq]
  have h : (responseWord e l d).toNat = (e ++ 0#3 ++ flagBit l ++ d).toNat := rfl
  rw [h, happ, happ, happ, BitVec.toNat_ofNat]
  ring

/-- A response word read back, field by field (R82). -/
theorem responseWord_fields (e : BitVec 4) (l : Bool) (d : Word) :
    errOf (responseWord e l d) = e ∧ padOf (responseWord e l d) = 0 ∧
      logOf (responseWord e l d) = flagBit l ∧ dataOf (responseWord e l d) = d := by
  have := d.isLt
  have := (flagBit l).isLt
  have := e.isLt
  refine ⟨?_, ?_, ?_, ?_⟩ <;> apply BitVec.eq_of_toNat_eq <;>
    simp only [errOf, padOf, logOf, dataOf, BitVec.extractLsb'_toNat, toNat_responseWord,
      Nat.shiftRight_eq_div_pow, show BitVec.toNat (0 : BitVec 3) = 0 from rfl] <;> omega

/-- A code is never 0, the mark of a normal response. -/
theorem ErrCode.code_ne_zero (e : ErrCode) : e.code ≠ 0 := by cases e <;> decide

theorem delayError_none {s : State} {v : Word} : delayError s v = none ↔ v.toNat < 2 ^ s.build.kFdl.val := by
  unfold delayError
  split <;> simp_all

theorem delayError_some {s : State} {v : Word} {e : ErrCode} :
    delayError s v = some e ↔ 2 ^ s.build.kFdl.val ≤ v.toNat ∧ e = .delay := by
  unfold delayError
  split
  · simp_all [eq_comm]
  · simp_all

theorem parameterError_none {v : Word} {d : Bool} : parameterError v d = none ↔ isFinite v = true ∧ d = true := by
  unfold parameterError
  cases isFinite v <;> cases d <;> simp

theorem parameterError_some {v : Word} {d : Bool} {e : ErrCode} :
    parameterError v d = some e ↔
      (isFinite v = false ∧ e = .nonfinite) ∨ (isFinite v = true ∧ d = false ∧ e = .range) := by
  unfold parameterError
  cases isFinite v <;> cases d <;> simp [eq_comm]

end Sys2Proof.Machine
end

