-- ==== Sys2Proof/Laws/Memory.lean ====
section
/-!
SUPPORT. The laws of a buffer's slots: a read after a write, and that every memory operation keeps the canonical form
and the index bound.
-/

namespace Sys2Proof.Machine

namespace Memory

@[simp] theorem read_nil (i : Nat) : Memory.read [] i = 0 := rfl

@[simp] theorem wf_nil : Memory.wf [] = true := rfl

theorem read_cons (c : Nat × Word) (m : Memory) (i : Nat) :
    Memory.read (c :: m) i = if c.1 = i then c.2 else Memory.read m i := rfl

theorem read_erase_same (m : Memory) (i : Nat) : (m.erase i).read i = 0 := by
  induction m with
  | nil => rfl
  | cons c m ih =>
    by_cases h : c.1 = i
    · simpa [Memory.erase, h] using ih
    · simpa [Memory.erase, h, read_cons] using ih

theorem read_erase_of_ne (m : Memory) {i j : Nat} (h : j ≠ i) : (m.erase i).read j = m.read j := by
  induction m with
  | nil => rfl
  | cons c m ih =>
    by_cases hc : c.1 = i
    · simp [Memory.erase, hc, read_cons, ih, Ne.symm h]
    · simp [Memory.erase, hc, read_cons, ih]

theorem not_mem_erase (m : Memory) (i : Nat) : ∀ c ∈ m.erase i, c.1 ≠ i := by
  induction m with
  | nil => simp [Memory.erase]
  | cons c m ih =>
    by_cases hc : c.1 = i
    · simpa [Memory.erase, hc] using ih
    · simp only [Memory.erase, hc, if_false, List.mem_cons]
      rintro d (rfl | hd)
      · exact hc
      · exact ih d hd

theorem read_insert_same (m : Memory) (i : Nat) (v : Word) (h : ∀ c ∈ m, c.1 ≠ i) :
    (m.insert i v).read i = v := by
  induction m with
  | nil => simp [Memory.insert, read_cons]
  | cons c m ih =>
    have hc : c.1 ≠ i := h c (by simp)
    by_cases hlt : i < c.1
    · simp [Memory.insert, hlt, read_cons]
    · simpa [Memory.insert, hlt, read_cons, hc] using ih fun d hd => h d (by simp [hd])

theorem read_insert_of_ne (m : Memory) {i j : Nat} (v : Word) (h : j ≠ i) :
    (m.insert i v).read j = m.read j := by
  induction m with
  | nil => simp [Memory.insert, read_cons, Ne.symm h]
  | cons c m ih =>
    by_cases hlt : i < c.1
    · simp [Memory.insert, hlt, read_cons, Ne.symm h]
    · simp [Memory.insert, hlt, read_cons, ih]

/-- A slot reads the value last written to it. -/
@[simp] theorem read_write_same (m : Memory) (i : Nat) (v : Word) : (m.write i v).read i = v := by
  unfold Memory.write
  split
  · rename_i h; rw [read_erase_same, h]
  · exact read_insert_same _ _ _ (not_mem_erase m i)

/-- A write leaves every other slot alone. -/
theorem read_write_of_ne (m : Memory) {i j : Nat} (v : Word) (h : j ≠ i) : (m.write i v).read j = m.read j := by
  unfold Memory.write
  split
  · exact read_erase_of_ne m h
  · rw [read_insert_of_ne _ _ h, read_erase_of_ne m h]

/-! ### The canonical form -/

/-- The canonical form, entry by entry: nothing listed is zero, and the indices rise strictly. -/
theorem wf_iff (m : Memory) :
    m.wf = true ↔ (∀ c ∈ m, c.2 ≠ 0) ∧ m.Pairwise (fun c d => c.1 < d.1) := by
  induction m with
  | nil => simp
  | cons c m ih =>
    cases m with
    | nil => simp [Memory.wf]
    | cons d m =>
      rw [Memory.wf, Bool.and_eq_true, Bool.and_eq_true, ih, decide_eq_true_iff, decide_eq_true_iff]
      constructor
      · rintro ⟨⟨hc, hcd⟩, hz, hp⟩
        refine ⟨?_, List.pairwise_cons.2 ⟨?_, hp⟩⟩
        · intro e he
          rcases List.mem_cons.1 he with rfl | he
          · exact hc
          · exact hz e he
        · intro e he
          rcases List.mem_cons.1 he with rfl | he
          · exact hcd
          · exact hcd.trans ((List.pairwise_cons.1 hp).1 e he)
      · rintro ⟨hz, hp⟩
        have hp' := List.pairwise_cons.1 hp
        exact ⟨⟨hz c (by simp), hp'.1 d (by simp)⟩, fun e he => hz e (by simp [he]), hp'.2⟩

theorem erase_sublist (m : Memory) (i : Nat) : (m.erase i).Sublist m := by
  induction m with
  | nil => exact List.Sublist.refl _
  | cons c m ih =>
    by_cases hc : c.1 = i
    · simpa [Memory.erase, hc] using ih.cons c
    · simpa [Memory.erase, hc] using ih.cons_cons c

theorem mem_insert {m : Memory} {i : Nat} {v : Word} {c : Nat × Word} (h : c ∈ m.insert i v) :
    c = (i, v) ∨ c ∈ m := by
  induction m with
  | nil => simpa [Memory.insert] using h
  | cons d m ih =>
    by_cases hlt : i < d.1
    · simpa [Memory.insert, hlt] using h
    · simp only [Memory.insert, hlt, if_false, List.mem_cons] at h
      rcases h with rfl | h
      · simp
      · rcases ih h with h | h <;> simp [h]

theorem wf_erase {m : Memory} (i : Nat) (h : m.wf = true) : (m.erase i).wf = true := by
  rw [wf_iff] at h ⊢
  exact ⟨fun c hc => h.1 c ((erase_sublist m i).subset hc), h.2.sublist (erase_sublist m i)⟩

theorem wf_insert {m : Memory} {i : Nat} {v : Word} (hv : v ≠ 0) (hi : ∀ c ∈ m, c.1 ≠ i) (h : m.wf = true) :
    (m.insert i v).wf = true := by
  rw [wf_iff] at h ⊢
  refine ⟨fun c hc => ?_, ?_⟩
  · rcases mem_insert hc with rfl | hc
    · exact hv
    · exact h.1 c hc
  · replace h := h.2
    induction m with
    | nil => simp [Memory.insert]
    | cons d m ih =>
      have hd := List.pairwise_cons.1 h
      by_cases hlt : i < d.1
      · simp only [Memory.insert, hlt, if_true]
        refine List.pairwise_cons.2 ⟨fun e he => ?_, h⟩
        rcases List.mem_cons.1 he with rfl | he
        · exact hlt
        · exact hlt.trans (hd.1 e he)
      · simp only [Memory.insert, hlt, if_false]
        refine List.pairwise_cons.2 ⟨fun e he => ?_, ih (fun c hc => hi c (by simp [hc])) hd.2⟩
        have hne := hi d (by simp)
        rcases mem_insert he with rfl | he
        · simp only; omega
        · exact hd.1 e he

/-- Every write keeps the canonical form. -/
theorem wf_write {m : Memory} (i : Nat) (v : Word) (h : m.wf = true) : (m.write i v).wf = true := by
  unfold Memory.write
  split
  · exact wf_erase i h
  · rename_i hv; exact wf_insert hv (not_mem_erase m i) (wf_erase i h)

/-- A write lists no index but its own and those already listed. -/
theorem mem_write {m : Memory} {i : Nat} {v : Word} {c : Nat × Word} (h : c ∈ m.write i v) : c.1 = i ∨ c ∈ m := by
  unfold Memory.write at h
  split at h
  · exact Or.inr ((erase_sublist m i).subset h)
  · rcases mem_insert h with rfl | h
    · exact Or.inl rfl
    · exact Or.inr ((erase_sublist m i).subset h)

end Memory

end Sys2Proof.Machine
end

