-- ==== Sys2Proof/Laws/PerInstr.lean ====
section
/-!
SUPPORT. Statements about every instruction as syntax, one lemma per constructor.
-/

namespace Sys2Proof.Laws

/-- The word of an instruction is accepted by the instruction's own row of the match and mask table (R85). -/
def MatchesRow.Statement (i : Instr) : Prop := ∃ p, patterns[i.row]? = some p ∧ p.accepts (encode i) = true

/-- A row given by the fields of its mask and value accepts an instruction if its fields match. -/
theorem MatchesRow.of_fields (i : Instr) (m v : Fields) (hrow : patterns[i.row]? = some ⟨m.toWord, v.toWord⟩)
    (h : i.fields.op &&& m.op = v.op ∧ i.fields.sel &&& m.sel = v.sel ∧ i.fields.a &&& m.a = v.a ∧
      i.fields.b &&& m.b = v.b) : MatchesRow.Statement i :=
  ⟨_, hrow, (Pattern.accepts_toWord m v i.fields).2 h⟩

theorem MatchesRow.rbPush (value : Word) : MatchesRow.Statement (.rbPush value) :=
  of_fields _ ⟨15, 15, 0, 0xFFFFFFFF⟩ ⟨1, 0, 0, 0⟩ rfl (by simp [Instr.fields, Op.bits])

theorem MatchesRow.rbGet (buffer : Buffer) (delay : Word) : MatchesRow.Statement (.rbGet buffer delay) :=
  of_fields _ ⟨15, 12, 0xFFFFFFFF, 0⟩ ⟨2, 0, 0, 0⟩ rfl (by cases buffer <;> simp [Instr.fields, Op.bits, Buffer.sel])

theorem MatchesRow.rbInit : MatchesRow.Statement .rbInit :=
  of_fields _ ⟨15, 15, 0xFFFFFFFF, 0xFFFFFFFF⟩ ⟨3, 0, 0, 0⟩ rfl (by simp [Instr.fields, Op.bits])

theorem MatchesRow.fdlProc (input : Word) : MatchesRow.Statement (.fdlProc input) :=
  of_fields _ ⟨15, 15, 0, 0xFFFFFFFF⟩ ⟨4, 0, 0, 0⟩ rfl (by simp [Instr.fields, Op.bits])

theorem MatchesRow.fdlInit (delaySamples : Word) : MatchesRow.Statement (.fdlInit delaySamples) :=
  of_fields _ ⟨15, 15, 0xFFFFFFFF, 0⟩ ⟨5, 0, 0, 0⟩ rfl (by simp [Instr.fields, Op.bits])

theorem MatchesRow.modProc (logging : Bool) (input sampleRate : Word) :
    MatchesRow.Statement (.modProc logging input sampleRate) :=
  of_fields _ ⟨15, 14, 0, 0⟩ ⟨6, 0, 0, 0⟩ rfl
    (by cases logging <;> simp [Instr.fields, Op.bits])

theorem MatchesRow.modInitVibrato : MatchesRow.Statement .modInitVibrato :=
  of_fields _ ⟨15, 15, 0xFFFFFFFF, 0xFFFFFFFF⟩ ⟨7, 0, 0, 0⟩ rfl (by simp [Instr.fields, Op.bits])

theorem MatchesRow.modInitChorus : MatchesRow.Statement .modInitChorus :=
  of_fields _ ⟨15, 15, 0xFFFFFFFF, 0xFFFFFFFF⟩ ⟨7, 1, 0, 0⟩ rfl (by simp [Instr.fields, Op.bits])

theorem MatchesRow.modInitFlanger : MatchesRow.Statement .modInitFlanger :=
  of_fields _ ⟨15, 15, 0xFFFFFFFF, 0xFFFFFFFF⟩ ⟨7, 2, 0, 0⟩ rfl (by simp [Instr.fields, Op.bits])

theorem MatchesRow.csrRd (csr : Csr) : MatchesRow.Statement (.csrRd csr) :=
  of_fields _ ⟨15, 0, 0xFFFFFFFF, 0xFFFFFFFF⟩ ⟨8, 0, 0, 0⟩ rfl (by simp [Instr.fields, Op.bits])

theorem MatchesRow.csrWr (csr : Csr) (value : Word) : MatchesRow.Statement (.csrWr csr value) :=
  of_fields _ ⟨15, 0, 0, 0xFFFFFFFF⟩ ⟨9, 0, 0, 0⟩ rfl (by simp [Instr.fields, Op.bits])

end Sys2Proof.Laws
end

