-- ==== Sys2Proof/Laws/Ring.lean ====
section
/-!
SUPPORT. Index arithmetic as arithmetic modulo 2^k (R110), and the laws of rb_push and rb_get (R140, R141).
-/

namespace Sys2Proof.Machine

/-- Masking is reduction modulo the capacity (R110). -/
theorem toNat_and_idxMask (x : Word) {k : Nat} (hk : k ≤ 31) : (x &&& idxMask k).toNat = x.toNat % 2 ^ k := by
  have hle : 2 ^ k ≤ 2 ^ 31 := Nat.pow_le_pow_right (by decide) hk
  have hm : (idxMask k).toNat = 2 ^ k - 1 := by
    rw [idxMask, BitVec.toNat_ofNat, Nat.mod_eq_of_lt]
    omega
  rw [BitVec.toNat_and, hm, Nat.and_two_pow_sub_one_eq_mod]

theorem toNat_idxReduce (d : Word) {k : Nat} (hk : k ≤ 31) : (idxReduce k d).toNat = d.toNat % 2 ^ k :=
  toNat_and_idxMask d hk

theorem toNat_idxSucc (i : Word) {k : Nat} (hk : k ≤ 31) : (idxSucc k i).toNat = (i.toNat + 1) % 2 ^ k := by
  rw [idxSucc, toNat_and_idxMask _ hk, BitVec.toNat_add]
  have h : 2 ^ k ∣ 2 ^ 32 := Nat.pow_dvd_pow 2 (by omega)
  rw [Nat.mod_mod_of_dvd _ h]
  rfl

theorem toNat_idxSub (i j : Word) {k : Nat} (hk : k ≤ 31) :
    (idxSub k i j).toNat = (2 ^ 32 - j.toNat + i.toNat) % 2 ^ k := by
  have h : 2 ^ k ∣ 2 ^ 32 := Nat.pow_dvd_pow 2 (by omega)
  rw [idxSub, toNat_and_idxMask _ hk, BitVec.toNat_sub, Nat.mod_mod_of_dvd _ h]

/-- The slot a delay addresses, as a number (R61): `widx - d` modulo the capacity. -/
theorem RingBuf.toNat_slotOf (b : RingBuf) (d : Word) {k : Nat} (hk : k ≤ 31) :
    (b.slotOf k d).toNat = (b.widx.toNat + (2 ^ k - d.toNat % 2 ^ k)) % 2 ^ k := by
  have h : 2 ^ k ∣ 2 ^ 32 := Nat.pow_dvd_pow 2 (by omega)
  have hlt : d.toNat % 2 ^ k < 2 ^ k := Nat.mod_lt _ (Nat.two_pow_pos k)
  have hle : 2 ^ k ≤ 2 ^ 32 := Nat.pow_le_pow_right (by decide) (by omega)
  rw [RingBuf.slotOf, toNat_idxSub _ _ hk, toNat_idxReduce _ hk]
  obtain ⟨c, hc⟩ := h
  have : 2 ^ 32 - d.toNat % 2 ^ k + b.widx.toNat
      = b.widx.toNat + (2 ^ k - d.toNat % 2 ^ k) + 2 ^ k * (c - 1) := by
    have hc1 : 1 ≤ c := by
      rcases Nat.eq_zero_or_pos c with rfl | h
      · simp at hc
      · exact h
    have : 2 ^ k * c = 2 ^ k + 2 ^ k * (c - 1) := by
      conv_lhs => rw [← Nat.sub_add_cancel hc1, Nat.mul_add]
      ring
    omega
  rw [this, Nat.add_mul_mod_self_left]

/-- The slot a delay addresses lies in the buffer (R61). -/
theorem RingBuf.slotOf_lt (b : RingBuf) (d : Word) {k : Nat} (hk : k ≤ 31) : (b.slotOf k d).toNat < 2 ^ k := by
  rw [b.toNat_slotOf d hk]
  exact Nat.mod_lt _ (Nat.two_pow_pos k)

@[simp] theorem RingBuf.push_widx (k : Nat) (b : RingBuf) (v : Word) : (b.push k v).widx = idxSucc k b.widx := rfl

@[simp] theorem RingBuf.push_mem (k : Nat) (b : RingBuf) (v : Word) :
    (b.push k v).mem = b.mem.write b.widx.toNat v := rfl

/-- rb_push keeps a buffer well formed (R21, R45 (a)). -/
theorem RingBuf.push_wf {k : Nat} {b : RingBuf} (v : Word) (hk : k ≤ 31) (h : b.wf k) : (b.push k v).wf k := by
  refine ⟨Memory.wf_write _ _ h.1, ?_, fun c hc => ?_⟩
  · rw [RingBuf.push_widx, toNat_idxSucc _ hk]
    exact Nat.mod_lt _ (Nat.two_pow_pos k)
  · rcases Memory.mem_write hc with hc | hc
    · rw [hc]; exact h.2.1
    · exact h.2.2 c hc

/-- A zero-filled buffer is well formed. -/
theorem RingBuf.zeroFilled_wf (k : Nat) : RingBuf.zeroFilled.wf k :=
  ⟨rfl, Nat.two_pow_pos k, by simp [RingBuf.zeroFilled]⟩

/-- Every delay into a zero-filled buffer reads zero. -/
@[simp] theorem RingBuf.zeroFilled_get (k : Nat) (d : Word) : RingBuf.zeroFilled.get k d = 0 := rfl

@[simp] theorem RingBuf.zeroFilled_eq_empty : RingBuf.zeroFilled = RingBuf.empty := rfl

/-- The slot at `widx` is what the latest push wrote, wherever the delay that addresses it comes from. -/
theorem RingBuf.get_push (k : Nat) (b : RingBuf) (v d : Word) :
    (b.push k v).get k d =
      if ((b.push k v).slotOf k d).toNat = b.widx.toNat then v else b.mem.read ((b.push k v).slotOf k d).toNat := by
  unfold RingBuf.get
  split
  · rename_i h; rw [h, RingBuf.push_mem, Memory.read_write_same]
  · rename_i h; rw [RingBuf.push_mem, Memory.read_write_of_ne _ _ h]

end Sys2Proof.Machine
end

