-- ==== Sys2Proof/Laws/Rounding.lean ====
section
/-!
SUPPORT. `roundMag` with a sign rounds to nearest, ties to even, with overflow to infinity, in the terms of
`RoundsTo` (R117).
-/

namespace Sys2Proof.Machine

theorem evenFraction_pack (s : Bool) {m : Nat} (hm : m < 2 ^ 31) : evenFraction (pack s m) = true ↔ m % 2 = 0 := by
  have h : ∀ r : Word, evenFraction r = true ↔ r.toNat % 2 = 0 := by
    intro r
    simp [evenFraction, BitVec.getLsbD, Nat.testBit_zero]
  rw [h, toNat_pack s hm]
  cases s
  · simp
  · simp only [if_true]
    omega

/-- No magnitude is nearer than the rounded one, and where one is as near the rounded pattern is even. -/
theorem roundMagWide_le_dist (num : Nat) {den : Nat} (hd : 0 < den) (m : Nat) :
    ((num : Int) - unitsOfMag (roundMagWide num den) * den).natAbs ≤ ((num : Int) - unitsOfMag m * den).natAbs ∧
    (((num : Int) - unitsOfMag (roundMagWide num den) * den).natAbs = ((num : Int) - unitsOfMag m * den).natAbs →
      m ≠ roundMagWide num den → roundMagWide num den % 2 = 0) := by
  obtain ⟨hhi, hhit, hlo⟩ := roundMagWide_nearest num hd
  rw [← Nat.cast_mul, ← Nat.cast_mul]
  generalize roundMagWide num den = W at *
  rcases Nat.lt_trichotomy m W with h | rfl | h
  · obtain ⟨p, rfl⟩ : ∃ p, W = p + 1 := ⟨W - 1, by omega⟩
    obtain ⟨hl, hlt⟩ := hlo p rfl
    have hm : unitsOfMag m ≤ unitsOfMag p := unitsOfMag_le.2 (by omega)
    have hu : unitsOfMag p < unitsOfMag (p + 1) := unitsOfMag_lt.2 (by omega)
    have h1 := Nat.mul_le_mul_right den hm
    have h2 := Nat.mul_lt_mul_of_pos_right hu hd
    rw [Nat.add_mul] at hl hlt
    refine ⟨?_, fun he _ => hlt ?_⟩ <;> omega
  · exact ⟨le_rfl, fun _ h => absurd rfl h⟩
  · have hm : unitsOfMag (W + 1) ≤ unitsOfMag m := unitsOfMag_le.2 (by omega)
    have hu : unitsOfMag W < unitsOfMag (W + 1) := unitsOfMag_lt.2 (by omega)
    have h1 := Nat.mul_le_mul_right den hm
    have h2 := Nat.mul_lt_mul_of_pos_right hu hd
    rw [Nat.add_mul] at hhi hhit
    refine ⟨?_, fun he _ => hhit ?_⟩ <;> omega

/-- The largest finite magnitude, and the one above it. -/
theorem unitsOfMag_top : unitsOfMag 0x7F7FFFFF = (2 ^ 24 - 1) * 2 ^ 253 ∧ unitsOfMag 0x7F800000 = 2 ^ 24 * 2 ^ 253 := by
  decide +kernel

/-- A magnitude with a sign, rounded (R117). -/
theorem roundsTo_pack (s : Bool) (num : Nat) {den : Nat} (hd : 0 < den) :
    RoundsTo (if s then -(num : Int) else num) den (pack s (roundMag num den)) := by
  obtain ⟨hmax, hinf⟩ := unitsOfMag_top
  obtain ⟨hhi, hhit, hlo⟩ := roundMagWide_nearest num hd
  have hdist := roundMagWide_le_dist num hd
  have habs : (if s then -(num : Int) else num).natAbs = num := by cases s <;> simp
  rcases Nat.lt_or_ge (roundMagWide num den) 0x7F800000 with h | h
  · have hr : roundMag num den = roundMagWide num den := by rw [roundMag_eq]; omega
    have hmono : unitsOfMag (roundMagWide num den + 1) ≤ 2 ^ 24 * 2 ^ 253 := hinf ▸ unitsOfMag_le.2 h
    have hmono' : unitsOfMag (roundMagWide num den) ≤ (2 ^ 24 - 1) * 2 ^ 253 := hmax ▸ unitsOfMag_le.2 (by omega)
    refine .inl ⟨?_, fun y hy => ?_, ?_⟩
    · rw [isFinite_pack _ (by omega)]; omega
    · rw [hr, units_pack _ (by omega), units_eq y, evenFraction_pack _ (by omega)]
      obtain ⟨h1, h2⟩ := hdist (magField y)
      obtain ⟨h0, -⟩ := hdist 0
      have hB : unitsOfMag (magField y) * den = 0 → magField y = 0 := fun h => by
        rcases Nat.mul_eq_zero.1 h with h | h
        · exact unitsOfMag_inj.1 (h.trans unitsOfMag_zero.symm)
        · omega
      have hcong : magField y = roundMagWide num den →
          unitsOfMag (magField y) = unitsOfMag (roundMagWide num den) := fun h => by rw [h]
      have hz : magField y = 0 → unitsOfMag (magField y) = 0 := fun h => by rw [h, unitsOfMag_zero]
      rw [unitsOfMag_zero] at h0
      rw [← Nat.cast_mul] at h0 h1 h2
      rw [← Nat.cast_mul] at h1 h2
      generalize roundMagWide num den = W at *
      generalize magField y = m at *
      cases s <;> cases signBit y <;>
        simp only [if_true, Bool.false_eq_true, if_false, Int.neg_mul, ← Nat.cast_mul] <;>
        generalize unitsOfMag W * den = A at * <;> generalize unitsOfMag m * den = B at * <;> omega
    · rw [habs]
      have hlt : 2 * num < (2 ^ 25 - 1) * 2 ^ 253 * den := by
        have e : ((2 ^ 24 - 1) * 2 ^ 253 + 2 ^ 24 * 2 ^ 253) * den = (2 ^ 25 - 1) * 2 ^ 253 * den := by ring
        have hle := Nat.mul_le_mul_right den (Nat.add_le_add hmono' hmono)
        rcases Nat.lt_or_ge (roundMagWide num den) 0x7F7FFFFF with h' | h'
        · have h3 : unitsOfMag (roundMagWide num den) < (2 ^ 24 - 1) * 2 ^ 253 := hmax ▸ unitsOfMag_lt.2 h'
          have := Nat.mul_lt_mul_of_pos_right (Nat.add_lt_add_of_lt_of_le h3 hmono) hd
          omega
        · have : roundMagWide num den = 0x7F7FFFFF := by omega
          rw [this] at hhi hhit
          rw [show 0x7F7FFFFF + 1 = 0x7F800000 from rfl, hmax, hinf, e] at hhi hhit
          omega
      omega
  · have hr : roundMag num den = 0x7F800000 := by rw [roundMag_eq]; omega
    obtain ⟨p, hp⟩ : ∃ p, p + 1 = roundMagWide num den := ⟨roundMagWide num den - 1, by omega⟩
    obtain ⟨hl, -⟩ := hlo p hp
    have h1 : (2 ^ 24 - 1) * 2 ^ 253 ≤ unitsOfMag p := hmax ▸ unitsOfMag_le.2 (by omega)
    have h2 : 2 ^ 24 * 2 ^ 253 ≤ unitsOfMag (p + 1) := hinf ▸ unitsOfMag_le.2 (by omega)
    have hle := Nat.mul_le_mul_right den (Nat.add_le_add h1 h2)
    have e : ((2 ^ 24 - 1) * 2 ^ 253 + 2 ^ 24 * 2 ^ 253) * den = (2 ^ 25 - 1) * 2 ^ 253 * den := by ring
    have hpos : 0 < (2 ^ 25 - 1) * 2 ^ 253 * den := Nat.mul_pos (by decide) hd
    refine .inr ⟨?_, ?_, ?_⟩
    · rw [isInf_pack _ (by omega), hr]
    · rw [signBit_pack _ (by omega)]
      cases s
      · simp
      · simp only [if_true]
        rw [eq_comm, decide_eq_true_iff]
        omega
    · rw [habs]; omega

end Sys2Proof.Machine
end

