-- ==== Sys2Proof/Tests/Slice0.lean ====
section
/-!
SUPPORT. The model's own tests, with expected results from spec/95_test_vectors.md or from the encoding tables of
spec/30_encoding.md, and for each statement with hypotheses a concrete witness that meets them.
-/

namespace Sys2Proof.Machine.Tests

/-! ## Helpers -/

/-- The build of the test vectors: capacities 4, 4, 64. -/
def vecBuild : Build := ⟨2, 2, 4⟩

def start : State := State.resetOf vecBuild

/-- The reset state of the build with capacities 4, 4, 8. -/
def start8 : State := State.resetOf ⟨2, 2, 1⟩

/-- A full buffer of capacity 4. -/
def ring (a b c d widx : Word) : RingBuf := ⟨[(0, a), (1, b), (2, c), (3, d)], widx⟩

/-- The response a command forms when none waits, or 0. -/
def response (s : State) (i : Instr) : RspWord := (perform s i).responses.getD 0 0

/-- The state after a step. -/
def after (s : State) : State :=
  match step s with
  | .next t => t
  | .fault _ => s
  | .refused _ => s

/-- A sine with the properties S1 to S4. -/
def flatSine (x : Word) : Word := if isFinite x then ZERO else NAN

theorem flatSine_props : SineProps flatSine := by
  refine ⟨fun x h => ?_, fun x h => ?_, by decide⟩
  · simp only [flatSine, h, if_true]; decide
  · simp [flatSine, h]

/-! ## Well-formedness: an ill-formed term for each check (R88) -/

theorem test_wf_reserved_op : Fields.wellFormed ⟨10, 0, 0, 0⟩ = false ∧ Fields.wellFormed ⟨0, 0, 0, 0⟩ = false := by
  decide

theorem test_wf_sel_range : Fields.wellFormed ⟨2, 4, 0, 1⟩ = false ∧ Fields.wellFormed ⟨2, 3, 0, 1⟩ = true := by
  decide

theorem test_wf_a_not_zero : Fields.wellFormed ⟨8, 9, 1, 0⟩ = false ∧ Fields.wellFormed ⟨8, 9, 0, 0⟩ = true := by
  decide

theorem test_wf_b_not_zero : Fields.wellFormed ⟨9, 9, 1, 1⟩ = false ∧ Fields.wellFormed ⟨9, 9, 1, 0⟩ = true := by
  decide

/-! ## Decoding and encoding: words written out from R81 and R84 -/

/-- `op = 0001`, `sel = 0000`, `a` = 0.5 (R142). -/
theorem test_decode_rb_push : decode (0b0001#4 ++ 0b0000#4 ++ 0x3F000000#32 ++ 0#32) = .ok (.rbPush 0x3F000000) := by
  rfl

/-- `op = 0010`, `sel = 0010` the output history, `b` = 4 (R143, V-RB-6). -/
theorem test_decode_rb_get : decode (0b0010#4 ++ 0b0010#4 ++ 0#32 ++ 4#32) = .ok (.rbGet .oh 4) := by rfl

theorem test_decode_rb_init : decode (0b0011#4 ++ 0b0000#4 ++ 0#32 ++ 0#32) = .ok .rbInit := by rfl

theorem test_decode_fdl_proc : decode (0b0100#4 ++ 0b0000#4 ++ 0xBF000000#32 ++ 0#32) = .ok (.fdlProc 0xBF000000) := by
  rfl

theorem test_decode_fdl_init : decode (0b0101#4 ++ 0b0000#4 ++ 0#32 ++ 0xFFFFFFFF#32) = .ok (.fdlInit 0xFFFFFFFF) := by
  rfl

/-- `sel[0]` is the log flag, `a` the input, `b` the sample rate (R181). -/
theorem test_decode_mod_proc :
    decode (0b0110#4 ++ 0b0001#4 ++ 0x3F000000#32 ++ 0x0000BB80#32) = .ok (.modProc true 0x3F000000 48000) ∧
    decode (0b0110#4 ++ 0b0000#4 ++ 0x3F000000#32 ++ 0x0000BB80#32) = .ok (.modProc false 0x3F000000 48000) := by
  exact ⟨rfl, rfl⟩

theorem test_decode_mod_init :
    decode (0b0111#4 ++ 0b0000#4 ++ 0#32 ++ 0#32) = .ok .modInitVibrato ∧
    decode (0b0111#4 ++ 0b0001#4 ++ 0#32 ++ 0#32) = .ok .modInitChorus ∧
    decode (0b0111#4 ++ 0b0010#4 ++ 0#32 ++ 0#32) = .ok .modInitFlanger := by
  exact ⟨rfl, rfl, rfl⟩

/-- CSR number 15 is LOG_MAX (R30). -/
theorem test_decode_csr_rd : decode (0b1000#4 ++ 0b1111#4 ++ 0#32 ++ 0#32) = .ok (.csrRd .logMax) := by rfl

/-- CSR number 11 is MOD_MIX (R30). -/
theorem test_decode_csr_wr :
    decode (0b1001#4 ++ 0b1011#4 ++ 0x3F800000#32 ++ 0#32) = .ok (.csrWr .modMix 0x3F800000) := by rfl

/-- V-DEC-1: the illegal words. -/
theorem test_decode_illegal :
    [0x000000000000000000, 0x000000000100000001, 0xA00000000000000000, 0xB00000000000000000, 0xC00000000000000000,
     0xD00000000000000000, 0xE00000000000000000, 0xFFFFFFFFFFFFFFFFFF, 0x113F00000000000000, 0x103F00000000000001,
     0x240000000000000001, 0x200000000100000001, 0x310000000000000000, 0x300000000100000000, 0x300000000000000001,
     0x413F00000000000000, 0x403F00000000000001, 0x510000000000000001, 0x500000000100000001, 0x62000000000000BB80,
     0x68000000000000BB80, 0x730000000000000000, 0x700000000100000000, 0x710000000000000001, 0x800000000100000000,
     0x800000000000000001, 0x993F80000000000001].all
      (fun w : CmdWord => match decode w with | .ok _ => false | .error _ => true) = true := by
  decide

/-- V-ERR-1: a word with a reserved field is illegal whatever else is wrong with it. -/
theorem test_decode_priority :
    decode 0x910000000000000001 = .error .bNotZero ∧ decode 0x930000000400000001 = .error .bNotZero ∧
    decode 0x620000000000000000 = .error .selOutOfRange := by
  exact ⟨rfl, rfl, rfl⟩

/-- `fdl.setfb 0.2` (V-FDL-1). -/
theorem test_encode : encode (.csrWr .fdlFb 0x3E4CCCCD) = 0x953E4CCCCD00000000 := by decide

/-- The host's view of a row: the 72 bits of the table, bit 0 the least significant (R81). -/
theorem test_decode_table_word :
    decodeTableWord 72 0x710000000000000000 = some .modInitChorus ∧ decodeTableWord 72 0 = none := by
  decide

/-! ## The step and the ports -/

theorem test_fetch_word_runs : step (State.reset.withFetchWord 72 0x300000000000000000) = exec .rbInit State.reset := by
  rfl

/-- V-DEC-1: an illegal word answers `1000000000` and sets `ERR[1]`. -/
theorem test_step_illegal :
    (after { start with inputs := [.present 0] }).responses = [0x1000000000] ∧
    (after { start with inputs := [.present 0] }).csr .status = 0x00000002 := by
  decide

theorem test_step_deliver :
    (after { start with inputs := [.acceptResponse], responses := [1, 2] }).responses = [2] ∧
    (after { start with inputs := [.acceptResponse], responses := [1, 2] }).delivered = [1] := by
  decide

/-- R290: reset drops what is undelivered and clears the registers. -/
theorem test_step_reset :
    after { start with
      inputs := [.assertReset], responses := [1], fdl := { start.fdl with wet := ONE },
      err := { start.err with ro := true } } = start := by
  decide

/-! ## One step per instruction -/

/-- V-RB-2: the fifth push overwrites the slot of the first; V-RB-1: the index wraps from 3 to 0. -/
theorem test_rb_push :
    (perform { start with rb := ring 0x3F800000 0x40000000 0x40400000 0x40800000 0 } (.rbPush 0x40A00000)).rb =
      ring 0x40A00000 0x40000000 0x40400000 0x40800000 1 ∧
    (perform { start with rb := ⟨[(0, 0x3F000000), (1, 0x3E800000), (2, 0x3E19999A)], 3⟩ } (.rbPush 0)).rb =
      ⟨[(0, 0x3F000000), (1, 0x3E800000), (2, 0x3E19999A)], 0⟩ := by
  decide

/-- V-RB-2: after 1.0 to 6.0 in a buffer of four, delays 1, 4, 0 and 5. -/
theorem test_rb_get :
    let s : State := { start with rb := ring 0x40A00000 0x40C00000 0x40400000 0x40800000 2 }
    response s (.rbGet .rb0 1) = 0x0040C00000 ∧ response s (.rbGet .rb0 4) = 0x0040400000 ∧
      response s (.rbGet .rb0 0) = 0x0040400000 ∧ response s (.rbGet .rb0 5) = 0x0040C00000 := by
  decide

/-- V-RB-6: the buffer number names the history. -/
theorem test_rb_get_buffer :
    let s : State := { start with fdl := { start.fdl with oh := ring 0x3D343958 0xBEFB7E91 0xBEB24C84 0xBE60EB68 0 } }
    response s (.rbGet .oh 1) = 0x00BE60EB68 ∧ response s (.rbGet .oh 4) = 0x003D343958 ∧
      response s (.rbGet .ih 1) = 0 := by
  decide

/-- V-RB-7. -/
theorem test_rb_init : (perform { start with rb := ring 1 2 3 4 2 } .rbInit).rb = ⟨[], 0⟩ := by decide

/-- V-FDL-1, third command: both histories are read before either is pushed. -/
theorem test_fdl_proc :
    let s : State := { start with fdl :=
      { ih := ⟨[(0, 0x3F000000), (1, 0x3E800000)], 2⟩, oh := ⟨[(1, 0x3F000000)], 2⟩, delay := 1, wet := 0x3F800000,
        fb := 0x3E4CCCCD } }
    response s (.fdlProc 0x3E19999A) = 0x003EB33333 ∧
      (perform s (.fdlProc 0x3E19999A)).fdl.oh = ⟨[(1, 0x3F000000), (2, 0x3EB33333)], 3⟩ := by
  decide

/-- V-FDL-10, fifth command: general gains, every operation rounding. -/
theorem test_fdl_proc_gains :
    let s : State := { start with fdl :=
      { ih := ring 0x3F800000 0x3DCCCCCD 0xBE99999A 0x3F333333 0, oh := ring 0x3F000000 0x3D4CCCCD 0x3EF33333 0x3ED33333 0,
        delay := 2, wet := 0x3F000000, fb := 0x3E800000 } }
    response s (.fdlProc 0) = 0x00BD000002 := by
  decide

/-- V-FDL-6: 3 is accepted, 4 ends with E_DELAY and keeps everything but `ERR[2]`. -/
theorem test_fdl_init :
    (perform start (.fdlInit 3)).fdl.delay = 3 ∧ response start (.fdlInit 3) = 0 ∧
    response start (.fdlInit 4) = 0x2000000000 ∧
    perform { start with fdl := { start.fdl with wet := ONE, ih := ring 1 2 3 4 0 } } (.fdlInit 4) =
      { start with
        fdl := { start.fdl with wet := ONE, ih := ring 1 2 3 4 0 }, err := { start.err with delay := true },
        responses := [0x2000000000] } := by
  decide

/-- V-MOD-3, second command: `d0 = 2`, `fr = 0.25`, whatever the sine. -/
theorem test_mod_proc :
    let s : State := { start8 with mod := { start8.mod with
      variant := .flanger, mh := ⟨[(0, 0x3F800000)], 1⟩, rate := 0x3E4CCCCD, depth := 0, mix := 0x3F800000,
      phase := 0x3A1268A9, firstDone := true } }
    (modProcWith flatSine false 0x3F000000 2250 s).responses = [0x003F400000] ∧
      (modProcWith flatSine false 0x3F000000 2250 s).mod.phase = 0x3A9268A9 := by
  decide +kernel

/-- V-MOD-9: the first call with the log flag, Flanger at 44100 Hz; the logged range is not clamped. -/
theorem test_mod_proc_log :
    let s : State := { start with mod := { start.mod with
      variant := .flanger, rate := 0x3E4CCCCD, depth := 0x42400000, mix := 0x3F000000 } }
    (modProcWith flatSine true 0 44100 s).mod.logMin = 0xBDB51D94 ∧
      (modProcWith flatSine true 0 44100 s).mod.logMax = 0x4005A8ED ∧
      (modProcWith flatSine true 0 44100 s).csr .status = 0x00000300 ∧
      (modProcWith flatSine true 0 44100 s).responses = [0x0100000000] := by
  decide +kernel

/-- V-MOD-10: a zero sample rate changes nothing but `ERR[5]`. -/
theorem test_mod_proc_zero_rate :
    perform start (.modProc true 0x3F800000 0) =
      { start with err := { start.err with srate := true }, responses := [0x5000000000] } := by
  decide

/-- V-MOD-14. -/
theorem test_mod_init_chorus :
    (perform start .modInitChorus).csr .modRate = 0x3F4CCCCD ∧ (perform start .modInitChorus).csr .modDepth = 0x42C00000 ∧
    (perform start .modInitChorus).csr .modMix = 0x3F000000 ∧ (perform start .modInitChorus).csr .modVariant = 1 := by
  decide

theorem test_mod_init_flanger :
    (perform start .modInitFlanger).csr .modRate = 0x3E4CCCCD ∧ (perform start .modInitFlanger).csr .modDepth = 0x42400000 ∧
    (perform start .modInitFlanger).csr .modMix = 0x3F000000 ∧ (perform start .modInitFlanger).csr .modVariant = 2 := by
  decide

/-- V-MOD-8: MOD.INIT re-arms the log. -/
theorem test_mod_init_vibrato :
    (perform { start with mod := { start.mod with firstDone := true, logged := true, phase := 1 } } .modInitVibrato).mod =
      start.mod := by
  decide

/-- V-CSR-1: CAP at reset; V-MOD-10: STATUS with `ERR[5]`, FIRST_DONE and LOGGED. -/
theorem test_csr_rd :
    response start (.csrRd .cap) = 0x0001060202 ∧
    response { start with
      err := { start.err with srate := true }, mod := { start.mod with firstDone := true, logged := true } }
      (.csrRd .status) = 0x0000000320 := by
  decide

/-- V-CSR-2, V-CSR-3: the boundary values of MOD_MIX and MOD_RATE. -/
theorem test_csr_wr_parameters :
    response start (.csrWr .modMix 0x3F800000) = 0 ∧ response start (.csrWr .modMix 0x3F800001) = 0x4000000000 ∧
    response start (.csrWr .modMix 0x80000000) = 0 ∧ response start (.csrWr .modRate 0x80000000) = 0x4000000000 ∧
    response start (.csrWr .modRate 1) = 0 ∧ response start (.csrWr .modRate 0xFF800000) = 0x3000000000 ∧
    response start (.csrWr .modDepth 0x80000001) = 0x4000000000 := by
  decide

/-- V-CSR-2: a NaN is stored in FDL_WET bit for bit; V-CSR-4: a read-only register. -/
theorem test_csr_wr :
    (perform start (.csrWr .fdlWet 0x7FC00001)).csr .fdlWet = 0x7FC00001 ∧
    perform start (.csrWr .modPhase 0x12345678) =
      { start with err := { start.err with ro := true }, responses := [0x6000000000] } := by
  decide

/-! ## Numerics -/

/-- V-NUM-1, the products and quotients. -/
theorem test_num_mul_div :
    fmul 0x3E4CCCCD 0x3E4CCCCD = 0x3D23D70B ∧ fmul 0x40C90FDB 0x40A00000 = 0x41FB53D2 ∧
    fdiv 0x41FB53D2 0x473B8000 = 0x3A2B92A7 ∧ fmul 0x3CA3D70A 0x473B8000 = 0x44700000 ∧
    fmul 0x3A83126F 0x473B8000 = 0x42400001 ∧ fmul 0 0x7F800000 = 0x7FC00000 ∧ fmul 0 0xBF800000 = 0x80000000 ∧
    fdiv 0x3F800000 0 = 0x7F800000 ∧ fdiv 0 0 = 0x7FC00000 ∧ fmul 0x00800000 0x3F000000 = 0x00400000 := by
  decide

/-- V-NUM-1, the sums: ties to even, overflow, signed zeros, NaN. -/
theorem test_num_add_sub :
    fsub 0x3F800000 0x3E4CCCCD = 0x3F4CCCCD ∧ fadd 0x4096CBE4 0x3FC90FDB = 0x40C90FDB ∧
    fadd 0x80000000 0 = 0 ∧ fadd 0x80000000 0x80000000 = 0x80000000 ∧ fsub 0x3F800000 0x3F800000 = 0 ∧
    fadd 0x7F800000 0xFF800000 = 0x7FC00000 ∧ fadd 0x7F7FFFFF 0x7F7FFFFF = 0x7F800000 ∧
    fadd 0x7F800001 0x3F800000 = 0x7FC00000 ∧ fadd 0x3F800000 0x33800000 = 0x3F800000 ∧
    fadd 0x3F800001 0x33800000 = 0x3F800002 := by
  decide

/-- V-NUM-1, the integer conversion. -/
theorem test_num_u2f :
    u2f 16777217 = 0x4B800000 ∧ u2f 16777219 = 0x4B800002 ∧ u2f 0xFFFFFFFF = 0x4F800000 ∧
    u2f 0xFFFFFF7F = 0x4F7FFFFF ∧ u2f 48000 = 0x473B8000 ∧ u2f 44100 = 0x472C4400 ∧ floorU 0x40200000 = 2 := by
  decide

/-- V-NUM-2, the clamp for `K_MOD = 6` and the selections. -/
theorem test_num_clamp :
    clampDelay 6 0x7FC00000 = 0x3F800000 ∧ clampDelay 6 0x7F800000 = 0x42780000 ∧ clampDelay 6 0xFF800000 = 0x3F800000 ∧
    clampDelay 6 0x42780000 = 0x42780000 ∧ clampDelay 6 0x447000A5 = 0x42780000 ∧ clampDelay 6 0x3F000000 = 0x3F800000 ∧
    fminSel 0x80000000 0 = 0x80000000 ∧ fminSel 0 0x80000000 = 0 ∧ fmaxSel 0x3F800000 0x7FC00000 = 0x3F800000 ∧
    fminSel 0x7FFFFFFF 0x3F800000 = 0x7FFFFFFF := by
  decide

/-- V-MOD-7 (a): the wrap uses `>=`. -/
theorem test_num_phase_wrap : nextPhase 0x4096CBE4 0x3F800000 (u2f 4) = 0 ∧ nextPhase 0 0x41000000 (u2f 4) = 0x40C90FDB := by
  decide

/-- R194, R199: the mix of two equal samples need not be that sample, since `1 - mix` and the products round. -/
theorem test_num_mix_rounds : mixLaw 0x3A0301AA 0x3EDB6DB7 0x3EDB6DB7 = 0x3EDB6DB8 := by decide

/-! ## Witnesses: for each statement with hypotheses, concrete values that meet them -/

theorem witness_EncodeDecodeRoundTrip : decode 0x9B3F80000000000000 = .ok (.csrWr .modMix 0x3F800000) := by rfl

theorem witness_WordSpellsCommandIffItMatchesRow :
    (patterns[10]? = some ⟨0xF000000000FFFFFFFF, 0x900000000000000000⟩ ∧
      (Pattern.mk 0xF000000000FFFFFFFF 0x900000000000000000).accepts 0x9B3F80000000000000 = true) ∧
    (∀ p ∈ patterns, p.accepts 0x9B3F80000000000001 = false) := by
  decide

/-- One word for each way a word can be illegal, at the boundary of its range. -/
theorem witness_IllegalWordsAreThoseWithBadField :
    let field (w : CmdWord) (n : Nat) : Nat := (w.extractLsb' n 4).toNat
    (field 0x0F0000000000000000 68 = 0 ∧ field 0xA00000000000000000 68 = 10) ∧
    (field 0x510000000000000000 68 = 5 ∧ field 0x510000000000000000 64 ≠ 0) ∧
    (field 0x240000000000000000 68 = 2 ∧ 3 < field 0x240000000000000000 64) ∧
    (field 0x620000000000000000 68 = 6 ∧ 1 < field 0x620000000000000000 64) ∧
    (field 0x730000000000000000 68 = 7 ∧ 2 < field 0x730000000000000000 64) ∧
    (field 0x8F0000000100000000 68 = 8 ∧ BitVec.extractLsb' 32 32 (0x8F0000000100000000 : CmdWord) ≠ 0) ∧
    (field 0x9F0000000000000001 68 = 9 ∧ BitVec.extractLsb' 0 32 (0x9F0000000000000001 : CmdWord) ≠ 0) := by
  decide

theorem witness_StepRunsDecodedCommand :
    (start.present 0x300000000000000000).inputs = .present 0x300000000000000000 :: [] ∧
    decode 0x300000000000000000 = .ok .rbInit := by
  exact ⟨rfl, rfl⟩

theorem witness_IllegalWordEndsWithIllegalError :
    (start.present 0x9B3F80000000000001).inputs = .present 0x9B3F80000000000001 :: [] ∧
    ∀ p ∈ patterns, p.accepts 0x9B3F80000000000001 = false := by
  decide

theorem witness_ResponsesDeliveredInOrder :
    (∃ s : State, s.inputs = .acceptResponse :: [] ∧ s.responses = 1 :: [2]) ∧
    (∃ s : State, s.inputs = .acceptResponse :: [] ∧ s.responses = []) ∧ start.inputs = [] :=
  ⟨⟨{ start with inputs := [.acceptResponse], responses := [1, 2] }, rfl, rfl⟩,
    ⟨{ start with inputs := [.acceptResponse] }, rfl, rfl⟩, rfl⟩

theorem witness_ResetPinGivesResetValues :
    ∃ s : State, s.inputs = .assertReset :: [.acceptResponse] ∧ s.fdl.wet = ONE :=
  ⟨{ start with inputs := [.assertReset, .acceptResponse], fdl := { start.fdl with wet := ONE } }, rfl, rfl⟩

theorem witness_EveryStepCompletes : (start.present 0).inputs = .present 0 :: [] := rfl

/-- A response with a code, and one with its log bit set: both conditions inside the statement are met. -/
theorem witness_OneWellFormedResponsePerCommand :
    errOf (response start (.fdlInit 4)) ≠ 0 ∧ ∀ d, logOf (responseWord 0 true d) = 1 :=
  ⟨by decide, fun d => (responseWord_fields 0 true d).2.2.1⟩

/-- The smallest and the largest buffer. -/
theorem witness_PushWritesOldestSlotOnly :
    (0 ≤ 31 ∧ RingBuf.empty.widx.toNat < 2 ^ 0) ∧ (31 ≤ 31 ∧ (RingBuf.mk [] 0x7FFFFFFF).widx.toNat < 2 ^ 31) := by
  decide

theorem witness_EffectiveAddressStaysInBuffer :
    2 ≤ 31 ∧ (ring 1 2 3 4 3).widx.toNat < 2 ^ 2 ∧ (3 : Word) = BitVec.ofNat 32 (2 ^ 2 - 1) := by
  decide

theorem witness_DelayWrapsSilently : 0 ≤ 31 ∧ 1 ≤ 31 := by decide

/-- The shortest and the longest delay, and the one delay of the smallest buffer. -/
theorem witness_WrapCorrectness : 2 ≤ 31 ∧ delayInHistory 2 1 ∧ delayInHistory 2 4 ∧ delayInHistory 0 1 := by decide

theorem witness_StartingIndexUnobservable : 2 ≤ 31 ∧ (0 : Word).toNat < 2 ^ 2 ∧ (3 : Word).toNat < 2 ^ 2 := by decide

theorem witness_PushShiftsHistory :
    2 ≤ 31 ∧ (ring 1 2 3 4 3).widx.toNat < 2 ^ 2 ∧ (1 ≤ (1 : Word).toNat ∧ (1 : Word).toNat < 2 ^ 2) ∧
    (1 ≤ (3 : Word).toNat ∧ (3 : Word).toNat < 2 ^ 2) := by
  decide

/-- Reset, then a delay length, WET = 1 and FB = 0.2 (V-FDL-4). -/
def echo (d : Word) : State := { start with fdl := { start.fdl with delay := d, wet := ONE, fb := 0x3E4CCCCD } }

/-- The shortest and the longest delay of the recurrence. -/
theorem witness_FdlOutputsSatisfyRecurrence :
    ((echo 1).fdl.ih = RingBuf.empty ∧ (echo 1).fdl.oh = RingBuf.empty ∧ 1 ≤ (echo 1).fdl.delay.toNat ∧
      (echo 1).fdl.delay.toNat < 2 ^ (echo 1).build.kFdl.val) ∧
    ((echo 3).fdl.ih = RingBuf.empty ∧ (echo 3).fdl.oh = RingBuf.empty ∧ 1 ≤ (echo 3).fdl.delay.toNat ∧
      (echo 3).fdl.delay.toNat < 2 ^ (echo 3).build.kFdl.val) :=
  ⟨⟨rfl, rfl, by decide, by decide⟩, ⟨rfl, rfl, by decide, by decide⟩⟩

theorem witness_DelayZeroIsFullBufferDelay :
    start.fdl.ih = RingBuf.empty ∧ start.fdl.oh = RingBuf.empty ∧ start.fdl.delay = 0 := by
  decide

/-- Both gains +0, with finite histories of either sign (the slot DELAY = 0 addresses is slot 0); and the inputs of
each clause: finite, `-0`, infinite, NaN, and a history that is not finite. -/
theorem witness_ZeroGainIdentity :
    (start.fdl.wet = 0x00000000 ∧ start.fdl.fb = 0x00000000) ∧
    (isFinite 0x3F000000 = true ∧ (0x3F000000 : Word) ≠ NEG_ZERO ∧ isFinite (start.fdl.ih.get 2 0) = true ∧
      isFinite (start.fdl.oh.get 2 0) = true) ∧
    (isFinite NEG_ZERO = true ∧ signBit (start.fdl.ih.get 2 0) = false) ∧
    (signBit ((ring 0xBF800000 1 2 3 0).get 2 0) = true ∧ isFinite ((ring 0xBF800000 1 2 3 0).get 2 0) = true) ∧
    (isInf 0x7F800000 = true ∧ isNaN 0x7F800001 = true ∧ isFinite ((ring 0x7F800000 1 2 3 0).get 2 0) = false) := by
  decide

theorem witness_ZeroGainIdentity_histories : start.fdl.ih.allFinite ∧ start.fdl.oh.allFinite :=
  have h : RingBuf.empty.allFinite := fun n => show isFinite 0 = true by decide
  ⟨h, h⟩

/-- V-FDL-4's gains; delay 1 and 6 zeros after the impulse meet every condition at once, j = 5 included. -/
theorem witness_FeedbackDecayIsGeometric :
    (echo 1).fdl.ih = RingBuf.empty ∧ (echo 1).fdl.oh = RingBuf.empty ∧ (echo 1).fdl.wet = ONE ∧
    flt ZERO (echo 1).fdl.fb = true ∧ flt (echo 1).fdl.fb ONE = true ∧ 1 ≤ (echo 1).fdl.delay.toNat ∧
    (echo 1).fdl.delay.toNat < 2 ^ (echo 1).build.kFdl.val ∧ (5 + 1) * (echo 1).fdl.delay.toNat ≤ 6 ∧
    5 % (echo 3).fdl.delay.toNat ≠ 0 :=
  ⟨rfl, rfl, rfl, by decide, by decide, by decide, by decide, by decide, by decide⟩

/-- The last accepted and the first refused delay. -/
theorem witness_DelayAcceptedIffBelowCapacity :
    (3 : Word).toNat < 2 ^ start.build.kFdl.val ∧ 2 ^ start.build.kFdl.val ≤ (4 : Word).toNat ∧
    (exec (.fdlInit 3) start = .next (perform start (.fdlInit 3)) ∧
      start.fdl.delay.toNat < 2 ^ start.build.kFdl.val) :=
  ⟨by decide, by decide, rfl, by decide⟩

/-- A non-zero rate, each variant, and both cases of the log. -/
theorem witness_ModProcEffect :
    (48000 : Word) ≠ 0 ∧ start.mod.variant = .vibrato ∧ (perform start .modInitChorus).mod.variant = .chorus ∧
    (perform start .modInitFlanger).mod.variant = .flanger ∧ (start.mod.firstDone = false ∧ true = true) ∧
    ¬(start.mod.firstDone = false ∧ false = true) := by
  decide

/-- The smallest and the largest MH; a delay inside, above and below the range, and a NaN. -/
theorem witness_ClampBoundsDelay :
    (2 ≤ 2 ∧ 24 ≤ 24) ∧ (0x40000000 : Word) = u2f (BitVec.ofNat 32 (2 ^ 2 - 2)) ∧
    (0x4B7FFFFE : Word) = u2f (BitVec.ofNat 32 (2 ^ 24 - 2)) ∧
    (fge 0x3FC00000 ONE = true ∧ fle 0x3FC00000 0x40000000 = true) ∧ fgt 0x40400000 0x40000000 = true ∧
    flt 0x3F000000 ONE = true ∧ isNaN 0x7FC00000 = true := by
  decide

theorem witness_DelaySplitsExactly :
    (2 ≤ 6 ∧ 6 ≤ 24) ∧ (0x40200000 : Word) = clampDelay 6 0x40200000 ∧ (2 : Word) = floorU 0x40200000 ∧
    (0x3F000000 : Word) = fracPart 0x40200000 ∧ clampDelay 6 0x7F800000 = u2f (BitVec.ofNat 32 (2 ^ 6 - 2)) := by
  decide

/-- The Vibrato preset rate at 48000 Hz, phase just below one turn. -/
theorem witness_PhaseStaysInTurn :
    (isFinite 0x40A00000 = true ∧ fgt 0x40A00000 ZERO = true ∧ (48000 : Word) ≠ 0) ∧
    start.mod.ParamsInv ∧ phaseInTurn start.mod.phase ∧ phaseInTurn 0x40C90FDA ∧
    incrementBelowTurn start.mod.rate (u2f 48000) := by
  decide

theorem witness_PhaseStaysInTurn_step :
    exec (.modProc false ONE 48000) start = .next (perform start (.modProc false ONE 48000)) := rfl

/-- Delay 1 exactly, with taps of each kind the clauses name. -/
theorem witness_InterpolationExactAtIntegerDelay :
    fracPart ONE = ZERO ∧ (ring 0x3F000000 0x3E800000 1 1 2).get 2 (floorU ONE) = 0x3E800000 ∧
    (ring 0x3F000000 0x3E800000 1 1 2).get 2 (floorU ONE + 1) = 0x3F000000 ∧
    (isFinite 0x3E800000 = true ∧ isFinite 0x3F000000 = true) ∧
    (isNaN 0x7F800000 = false ∧ (0x7F800000 : Word) ≠ NEG_ZERO) ∧
    (isFinite 0x7F800000 = false ∧ isNaN 0x7FC00001 = true ∧ signBit 0x3F000000 = false) := by
  decide

theorem witness_MixLawBoundary :
    isFinite 0x3F000000 = true ∧ (isNaN 0x7F800000 = false ∧ ¬((0x7F800000 : Word) = NEG_ZERO ∧ signBit ONE = false)) ∧
    signBit 0x3F000000 = false ∧ isFinite 0x7FC00000 = false ∧ isInf 0xFF800000 = true := by
  decide

theorem witness_DepthZeroIgnoresSine :
    (2 ≤ 6 ∧ 6 ≤ 24 ∧ (48000 : Word) ≠ 0) ∧ SineProps flatSine ∧
    (let u : ModUnit := { start.mod with depth := ZERO }
     u.mh.widx.toNat < 2 ^ 6 ∧ u.depth = ZERO ∧ isFinite (nextPhase u.phase u.rate (u2f 48000)) = true ∧
      u.variant = .vibrato) :=
  ⟨by decide, flatSine_props, by decide⟩

theorem witness_LogRecordedAtMostOnce :
    let s : State := { start with mod := { start.mod with firstDone := true } }
    exec (.modProc true ONE 48000) s = .next (perform s (.modProc true ONE 48000)) ∧ s.mod.firstDone = true :=
  ⟨rfl, rfl⟩

theorem witness_CapReportsBuild : start.build = ⟨2, 2, 4⟩ ∧ step start = .next start := ⟨rfl, rfl⟩

theorem witness_ReadOnlyCsrsRefuseWrites :
    ∀ c ∈ [Csr.cap, .logMax], c ∈ [Csr.cap, .status, .rbWidx, .fdlIhWidx, .fdlOhWidx, .modVariant, .modPhase, .modWidx,
      .logMin, .logMax] := by
  decide

/-- An illegal word and a refused command, each a step that ends with an error. -/
theorem witness_ErrorsArePrecise :
    (step (start.present 0) = .next (after (start.present 0)) ∧
      (after (start.present 0)).responses = (start.present 0).responses ++ [0x1000000000] ∧
      errOf 0x1000000000 ≠ 0) ∧
    (step (start.present 0x500000000000000004) = .next (after (start.present 0x500000000000000004)) ∧
      (after (start.present 0x500000000000000004)).responses =
        (start.present 0x500000000000000004).responses ++ [0x2000000000] ∧ errOf 0x2000000000 ≠ 0) :=
  ⟨⟨rfl, rfl, by decide⟩, ⟨rfl, rfl, by decide⟩⟩

theorem witness_StickyFlagsStaySet :
    let s : State := { start with err := { start.err with ro := true }, inputs := [.acceptResponse] }
    step s = .next (after s) ∧ s.err.get .ro = true ∧ ∀ rest, s.inputs ≠ .assertReset :: rest :=
  ⟨rfl, rfl, fun _ h => by cases h⟩

/-- One command for each code a command can set. -/
theorem witness_ErrorCodesRaisedByTheirCommands :
    ∀ p ∈ [(Instr.fdlInit 4, ErrCode.delay), (.csrWr .modMix 0x7F800000, .nonfinite), (.csrWr .modMix 0xBF800000, .range),
      (.modProc false 0 0, .srate), (.csrWr .cap 0, .ro)],
      start.err.get p.2 = false ∧ (perform start p.1).err.get p.2 = true := by
  decide

theorem witness_ErrorCodesRaisedByTheirCommands_step :
    exec (.csrWr .cap 0) start = .next (perform start (.csrWr .cap 0)) := rfl

theorem witness_EachStateHasItsWriters :
    exec (.rbPush ONE) start = .next (perform start (.rbPush ONE)) ∧ (perform start (.rbPush ONE)).rb ≠ start.rb ∧
    (perform start (.fdlProc ONE)).fdl.ih ≠ start.fdl.ih ∧ (perform start (.fdlInit 1)).fdl.delay ≠ start.fdl.delay ∧
    (perform start (.csrWr .fdlWet ONE)).fdl.wet ≠ start.fdl.wet ∧
    (perform start (.csrWr .fdlFb ONE)).fdl.fb ≠ start.fdl.fb ∧
    (perform { start with mod := { start.mod with phase := ONE } } .modInitVibrato).mod.phase ≠ ONE ∧
    (perform start .modInitChorus).mod.variant ≠ start.mod.variant ∧
    (perform start (.csrWr .modRate ONE)).mod.rate ≠ start.mod.rate ∧
    (perform start (.csrWr .modDepth ONE)).mod.depth ≠ start.mod.depth ∧
    (perform start (.csrWr .modMix ZERO)).mod.mix ≠ start.mod.mix :=
  ⟨rfl, by decide, by decide, by decide, by decide, by decide, by decide, by decide, by decide, by decide, by decide⟩

/-- A state that is not the reset state, with histories, settings and a log. -/
theorem witness_StepKeepsInvariant :
    let s : State := { start with
      rb := ring 1 2 3 4 3
      fdl := { ih := ring 1 2 3 4 1, oh := ring 1 2 3 4 1, delay := 3, wet := 0x7FC00001, fb := 0xBF800000 }
      mod := { start.mod with phase := 0x40C90FDA, firstDone := true, logged := true, logMin := ONE }
      inputs := [.present 0x300000000000000000] }
    s.Inv ∧ step s = .next (after s) :=
  ⟨by decide, rfl⟩

theorem witness_InitsReconstructOneUnit : (3 : Word).toNat < 2 ^ start.build.kFdl.val := by decide

theorem witness_OperationsRoundToNearestEven :
    isFinite 0x7F7FFFFF = true ∧ isFinite 0x00000001 = true ∧ isZero 0x00000001 = false := by
  decide

theorem witness_ArithmeticSpecialCases :
    (isFinite 0x3F800000 = true ∧ isFinite 0xBF800000 = true ∧ units 0x3F800000 + units 0xBF800000 = 0) ∧
    isInf 0xFF800000 = true ∧ isZero NEG_ZERO = true ∧ isZero 0x3F800000 = false ∧
    (isNaN (fmul 0x3F800000 0xFF800000) = false ∧ isNaN (fdiv 0x3F800000 NEG_ZERO) = false) := by
  decide

theorem witness_NaNsAreCanonical :
    (isNaN 0x7F800001 = true ∧ isNaN (fadd 0x7F800001 ONE) = true ∧ isNaN (fsub 0x7F800001 ONE) = true ∧
      isNaN (fmul 0x7F800001 ONE) = true ∧ isNaN (fdiv 0x7F800001 ONE) = true) ∧
    (isInf 0x7F800000 = true ∧ isInf 0xFF800000 = true ∧ signBit 0x7F800000 ≠ signBit 0xFF800000) ∧
    isZero NEG_ZERO = true ∧ start.rb.widx.toNat < 2 ^ start.build.kRb.val ∧
    start.fdl.ih.widx.toNat < 2 ^ start.build.kFdl.val := by
  decide

/-- 2.5 for the exact fraction; the largest value below 2^24; an infinity for the sums with a zero. -/
theorem witness_ArithmeticFacts :
    (fge 0x40200000 ONE = true ∧ flt 0x40200000 0x4B800000 = true) ∧
    (fge 0x4B7FFFFF ONE = true ∧ flt 0x4B7FFFFF 0x4B800000 = true) ∧
    (isNaN 0x7F800000 = false ∧ (0x7F800000 : Word) ≠ NEG_ZERO) ∧ isFinite NEG_ZERO = true := by
  decide

/-- Finite operands of both signs, the largest finite value and the smallest subnormal; a NaN. -/
theorem witness_ComparisonsOrderValues :
    isFinite 0x3F800000 = true ∧ isFinite 0xBF800000 = true ∧ isFinite 0x7F7FFFFF = true ∧ isFinite 0x00000001 = true ∧
    isNaN 0xFFC00000 = true := by
  decide

theorem witness_MinMaxSelectOperands :
    (isNaN NEG_ZERO = false ∧ isNaN ZERO = false ∧ fle NEG_ZERO ZERO = true ∧ fle ZERO NEG_ZERO = true) ∧
    isNaN 0x7FFFFFFF = true := by
  decide

/-- The largest exact integer, and the largest one whose 24 significant bits reach the top of the word. -/
theorem witness_IntegerConversionRoundsToNearestEven :
    (0x01000000 : Word).toNat ≤ 2 ^ 24 ∧
    (0xFFFFFF < 2 ^ 24 ∧ (0xFFFFFF00 : Word).toNat = 0xFFFFFF * 2 ^ 8) := by
  decide

/-- Both ends of the domain, and both ends of the exponent of MH. -/
theorem witness_FloorIsLargestIntegerBelow :
    (fge ONE ONE = true ∧ fle ONE 0x4B800000 = true) ∧ (fge 0x4B800000 ONE = true ∧ fle 0x4B800000 0x4B800000 = true) ∧
    (2 ≤ 2 ∧ 24 ≤ 24) := by
  decide

theorem witness_SineHasItsProperties : SineProps flatSine := flatSine_props

end Sys2Proof.Machine.Tests
end

section
/-!
PROOFS. The scope of the block (R5, R6, R9): what the ports hand to a step, and the sine of the build.
-/

namespace Sys2Proof.Machine

/-! ### What the next host event makes of a step (R6, R83, R291) -/

section
variable {s : State} {rest : List HostEvent}

theorem State.fetch_nil (h : s.inputs = []) : s.fetch = .idle := by simp only [State.fetch, h]

theorem State.fetch_present {w : CmdWord} (h : s.inputs = .present w :: rest) :
    s.fetch = .command w { s with inputs := rest } := by simp only [State.fetch, h]

theorem State.fetch_acceptResponse (h : s.inputs = .acceptResponse :: rest) :
    s.fetch = .handled ({ s with inputs := rest }.deliver) := by simp only [State.fetch, h]

theorem State.deliver_nil (h : s.responses = []) : s.deliver = s := by simp only [State.deliver, h]

theorem State.deliver_cons {r : RspWord} {rs : List RspWord} (h : s.responses = r :: rs) :
    s.deliver = { s with responses := rs, delivered := s.delivered ++ [r] } := by simp only [State.deliver, h]

theorem step_idle (h : s.inputs = []) : step s = .next s := by simp only [step, State.fetch_nil h]

theorem step_acceptResponse (h : s.inputs = .acceptResponse :: rest) :
    step s = .next ({ s with inputs := rest }.deliver) := by simp only [step, State.fetch_acceptResponse h]

theorem step_present_of_decode {w : CmdWord} {i : Instr} (h : s.inputs = .present w :: rest)
    (hd : decode w = .ok i) : step s = exec i { s with inputs := rest } := by
  simp only [step, State.fetch_present h, hd]

end

/-! ### The interval `[-1, 1]` by magnitude (R121, R126) -/

/-- A value lies in `[-1, 1]` iff its magnitude is at most that of 1: the order key of a value is its signed
magnitude, and the key of -1 is the negated key of 1. -/
theorem orderKey_between_iff (r : Word) :
    (orderKey r ≤ orderKey ONE ∧ orderKey (fneg ONE) ≤ orderKey r) ↔ magField r ≤ magField ONE := by
  have hpos : orderKey ONE = magField ONE := by decide
  have hneg : orderKey (fneg ONE) = -(magField ONE : Int) := by decide
  rw [hpos, hneg, orderKey]
  split <;> omega

/-- S2 of a value is the test that `unitRange` makes (R126). -/
theorem le_one_and_ge_neg_one_iff {r : Word} (h : isNaN r = false) :
    (fle r ONE = true ∧ fge r (fneg ONE) = true) ↔ magField r ≤ magField ONE := by
  have hone : isNaN ONE = false := by decide
  rw [← orderKey_between_iff]
  simp [fle, fge, isNaN_fneg, h, hone]

/-! ### The sine made from a raw function (R126) -/

theorem unitRange_of_mem {r : Word} (h : isNaN r = false) (hm : magField r ≤ magField ONE) : unitRange r = r := by
  simp [unitRange, h, hm]

/-- Whatever it is given, `unitRange` answers a value of `[-1, 1]`. -/
theorem unitRange_mem (r : Word) : isNaN (unitRange r) = false ∧ magField (unitRange r) ≤ magField ONE := by
  unfold unitRange
  split
  · next h => simpa using h
  · decide

theorem sineFrom_nonfinite (raw : Word → Word) {x : Word} (h : isFinite x = false) : sineFrom raw x = NAN := by
  simp [sineFrom, h]

theorem sineFrom_zero (raw : Word → Word) : sineFrom raw ZERO = ZERO := by
  have h : isFinite ZERO = true := by decide
  simp [sineFrom, h]

theorem sineFrom_finite (raw : Word → Word) {x : Word} (h : isFinite x = true) (h0 : x ≠ ZERO) :
    sineFrom raw x = unitRange (raw x) := by
  simp [sineFrom, h, h0]

/-- Every raw function gives a sine with S2 to S4 (R126). -/
theorem sineProps_sineFrom (raw : Word → Word) : SineProps (sineFrom raw) := by
  refine ⟨fun x hx => ?_, fun x hx => sineFrom_nonfinite raw hx, sineFrom_zero raw⟩
  obtain ⟨hnan, hmag⟩ : isNaN (sineFrom raw x) = false ∧ magField (sineFrom raw x) ≤ magField ONE := by
    by_cases h0 : x = ZERO
    · rw [h0, sineFrom_zero]
      decide
    · rw [sineFrom_finite raw hx h0]
      exact unitRange_mem _
  exact ⟨hnan, (le_one_and_ge_neg_one_iff hnan).2 hmag⟩

/-- A function that has S2 to S4 is the sine made from itself (R126). -/
theorem sineFrom_eq_self {f : Word → Word} (hf : SineProps f) (x : Word) : sineFrom f x = f x := by
  obtain ⟨hfinite, hnonfinite, hzero⟩ := hf
  by_cases hx : isFinite x = true
  · by_cases h0 : x = ZERO
    · rw [h0, sineFrom_zero, hzero]
    · obtain ⟨hnan, hrange⟩ := hfinite x hx
      rw [sineFrom_finite f hx h0, unitRange_of_mem hnan ((le_one_and_ge_neg_one_iff hnan).1 hrange)]
  · rw [Bool.not_eq_true] at hx
    rw [sineFrom_nonfinite f hx, hnonfinite x hx]

/-! ### The obligations -/

/-- Settles O59: S2 is the test of `unitRange`, so the form answers only such values and keeps every such value. -/
theorem sineHasItsProperties : Obligations.SineHasItsProperties :=
  ⟨sineProps_sineFrom Config.sinRaw, fun _ hf x => sineFrom_eq_self hf x⟩

/-- Settles O6: the word the block accepts is decoded and performed, with the event taken off. -/
theorem stepRunsDecodedCommand : Obligations.StepRunsDecodedCommand :=
  fun _ _ _ _ hin hd => step_present_of_decode hin hd

/-- Settles O8, by the three cases of the ports: a response waits, none waits, no event. -/
theorem responsesDeliveredInOrder : Obligations.ResponsesDeliveredInOrder := by
  refine ⟨fun s rest r rs hin hrsp => ?_, fun s rest hin hrsp => ?_, fun s hin => step_idle hin⟩
  · rw [step_acceptResponse hin, State.deliver_cons (s := { s with inputs := rest }) hrsp]
  · rw [step_acceptResponse hin, State.deliver_nil (s := { s with inputs := rest }) hrsp]

end Sys2Proof.Machine
end

section
/-!
PROOFS. The state of the block (R20 to R45): what a command can change, and the invariant of the reachable states.
-/

namespace Sys2Proof.Machine

/-! ### Comparison by value (R121)

An infinity is compared through `units` too: read as a magnitude it lies above every finite value. -/

theorem orderKey_le_iff (x y : Word) : orderKey x ≤ orderKey y ↔ units x ≤ units y := by
  have hle := unitsOfMag_le (a := magField x) (b := magField y)
  have hge := unitsOfMag_le (a := magField y) (b := magField x)
  have hx0 := unitsOfMag_le (a := magField x) (b := 0)
  have hy0 := unitsOfMag_le (a := magField y) (b := 0)
  rw [unitsOfMag_zero] at hx0 hy0
  rw [units_eq, units_eq, orderKey, orderKey]
  cases signBit x <;> cases signBit y <;> simp only [Bool.false_eq_true, if_true, if_false] <;> omega

theorem fle_iff (x y : Word) : fle x y = true ↔ isNaN x = false ∧ isNaN y = false ∧ units x ≤ units y := by
  simp [fle, orderKey_le_iff, and_assoc]

theorem flt_iff (x y : Word) : flt x y = true ↔ isNaN x = false ∧ isNaN y = false ∧ units x < units y := by
  rw [← not_le, ← orderKey_le_iff]
  simp [flt, and_assoc]

theorem fge_iff (x y : Word) : fge x y = true ↔ isNaN x = false ∧ isNaN y = false ∧ units y ≤ units x := by
  rw [fge, fle_iff, and_left_comm]

theorem fge_zero_iff (x : Word) : fge x ZERO = true ↔ isNaN x = false ∧ 0 ≤ units x := by
  have hnan : isNaN ZERO = false := by decide
  have hunits : units ZERO = 0 := by decide
  simp [fge_iff, hnan, hunits]

theorem fgt_zero_iff (x : Word) : fgt x ZERO = true ↔ isNaN x = false ∧ 0 < units x := by
  have hnan : isNaN ZERO = false := by decide
  have hunits : units ZERO = 0 := by decide
  simp [fgt, flt_iff, hnan, hunits]

theorem signBit_of_units_pos {x : Word} (h : 0 < units x) : signBit x = false := by
  rw [units_eq] at h
  cases hs : signBit x
  · rfl
  · rw [hs, if_pos rfl] at h
    omega

/-- An infinity that is not negative is the positive one. -/
theorem units_pos_of_isInf {x : Word} (hinf : isInf x = true) (h : 0 ≤ units x) : 0 < units x := by
  have h0 : ¬ units x = 0 := by
    rw [isInf_iff] at hinf
    rw [units_eq_zero, isZero_iff]
    omega
  omega

/-- A magnitude packed with a clear sign is not negative. -/
theorem fge_zero_pack {m : Nat} (hm : m ≤ 0x7F800000) : fge (pack false m) ZERO = true := by
  rw [fge_zero_iff, units_pack _ (by omega)]
  exact ⟨isNaN_pack _ hm, by simp⟩

/-! ### Operations whose result is not negative (R117) -/

/-- An infinity absorbs what is added to it, unless that is the opposite infinity. -/
theorem fadd_inf_left {x y : Word} (hx : isInf x = true) (hy : isNaN y = false)
    (hs : isInf y = true → signBit x = signBit y) : fadd x y = x := by
  have hnan : isNaN x = false := by
    rw [isInf_iff] at hx
    rw [Bool.eq_false_iff, ne_eq, isNaN_iff]
    omega
  unfold fadd
  cases hi : isInf y
  · simp [hnan, hy, hx]
  · simp [hnan, hy, hx, hs hi]

theorem fadd_inf_right {x y : Word} (hx : isFinite x = true) (hy : isInf y = true) (hn : isNaN y = false) :
    fadd x y = y := by
  simp [fadd, isNaN_of_finite hx, isInf_of_finite hx, hn, hy]

/-- A sum of finite values that is not negative does not round to a negative one. -/
theorem fge_zero_fadd_finite {x y : Word} (hx : isFinite x = true) (hy : isFinite y = true)
    (h : 0 ≤ units x + units y) : fge (fadd x y) ZERO = true := by
  rw [fadd_finite hx hy]
  split
  · cases signBit x && signBit y <;> decide
  · rw [decide_eq_false (by omega)]
    exact fge_zero_pack (roundMag_le _ _)

theorem isFinite_of_not_nan_of_not_inf {x : Word} (hn : isNaN x = false) (hi : isInf x = false) :
    isFinite x = true := by
  rcases class_cases x with h | h | h
  · exact h
  · rw [hi] at h; cases h
  · rw [hn] at h; cases h

theorem fge_zero_fadd {x y : Word} (hx : fge x ZERO = true) (hy : fge y ZERO = true) :
    fge (fadd x y) ZERO = true := by
  obtain ⟨hxn, hx0⟩ := (fge_zero_iff x).1 hx
  obtain ⟨hyn, hy0⟩ := (fge_zero_iff y).1 hy
  cases hxi : isInf x
  · have hxf := isFinite_of_not_nan_of_not_inf hxn hxi
    cases hyi : isInf y
    · exact fge_zero_fadd_finite hxf (isFinite_of_not_nan_of_not_inf hyn hyi) (by omega)
    · rwa [fadd_inf_right hxf hyi hyn]
  · have hsx := signBit_of_units_pos (units_pos_of_isInf hxi hx0)
    rwa [fadd_inf_left hxi hyn fun hyi => hsx.trans (signBit_of_units_pos (units_pos_of_isInf hyi hy0)).symm]

/-- A difference is not negative where the comparison says so. -/
theorem fge_zero_fsub {x y : Word} (hy : isFinite y = true) (hy0 : 0 ≤ units y) (h : fge x y = true) :
    fge (fsub x y) ZERO = true := by
  obtain ⟨hxn, hyn, hle⟩ := (fge_iff x y).1 h
  have hyf : isFinite (fneg y) = true := by rwa [isFinite_fneg]
  cases hxi : isInf x
  · exact fge_zero_fadd_finite (isFinite_of_not_nan_of_not_inf hxn hxi) hyf (by rw [units_fneg]; omega)
  · rw [fsub, fadd_inf_left hxi (isNaN_of_finite hyf) (by simp [isInf_of_finite hyf]), fge_zero_iff]
    exact ⟨hxn, hy0.trans hle⟩

/-- The product of two positive finite values is a magnitude with a clear sign, an infinity if it overflows. -/
theorem fmul_of_pos {x y : Word} (hx : isFinite x = true) (hx0 : 0 < units x) (hy : isFinite y = true)
    (hy0 : 0 < units y) : ∃ m, m ≤ 0x7F800000 ∧ fmul x y = pack false m :=
  ⟨_, roundMag_le _ _, by
    rw [fmul_finite hx hy, xorSign, signBit_of_units_pos hx0, signBit_of_units_pos hy0]; rfl⟩

/-- A magnitude with a clear sign, an infinity or not, divided by a positive finite value is not negative. -/
theorem fge_zero_fdiv_pack {m : Nat} {y : Word} (hm : m ≤ 0x7F800000) (hy : isFinite y = true) (hy0 : 0 < units y) :
    fge (fdiv (pack false m) y) ZERO = true := by
  have hsign : xorSign (pack false m) y = false := by
    rw [xorSign, signBit_pack _ (by omega), signBit_of_units_pos hy0]; rfl
  have hzero : isZero y = false := by
    rw [Bool.eq_false_iff, ne_eq, ← units_eq_zero]
    omega
  have hnan := isNaN_pack false hm
  cases hi : isInf (pack false m)
  · rw [fdiv_finite (isFinite_of_not_nan_of_not_inf hnan hi) hy hzero, hsign]
    exact fge_zero_pack (roundMag_le _ _)
  · have hdiv : fdiv (pack false m) y = infinity false := by
      simp [fdiv, hnan, hi, isNaN_of_finite hy, isInf_of_finite hy, hsign]
    rw [hdiv]
    decide

/-! ### The sample rate and the phase (R124, R184, R198) -/

/-- A sample rate other than 0 is a positive finite value: it lies between 1 and 2^32 (R124). -/
theorem u2f_pos {b : Word} (hb : b ≠ 0) : isFinite (u2f b) = true ∧ 0 < units (u2f b) := by
  have hpos : 0 < b.toNat := by
    rw [Nat.pos_iff_ne_zero]
    exact fun h => hb (BitVec.eq_of_toNat_eq h)
  have hlo : magField ONE ≤ roundMag (b.toNat * 2 ^ 149) 1 := by
    have hone : roundMag (unitsOfMag (magField ONE) * 1) 1 = magField ONE := roundMag_exact (by decide) (by decide)
    have hunits : unitsOfMag (magField ONE) = 2 ^ 149 := by decide
    rw [← hone, hunits]
    exact roundMag_mono (by decide) (by decide) (by omega)
  have hhi : roundMag (b.toNat * 2 ^ 149) 1 ≤ 0x4F800000 := by
    have htop : roundMag (unitsOfMag 0x4F800000 * 1) 1 = 0x4F800000 := roundMag_exact (by decide) (by decide)
    have hunits : unitsOfMag 0x4F800000 = 2 ^ 32 * 2 ^ 149 := by decide
    have := b.isLt
    rw [← htop, hunits]
    exact roundMag_mono (by decide) (by decide) (by omega)
  have hone : magField ONE = 0x3F800000 := by decide
  rw [hone] at hlo
  refine ⟨(isFinite_pack false (by omega)).2 (by omega), ?_⟩
  rw [u2f, units_pack _ (by omega), if_neg (by decide)]
  have := unitsOfMag_lt (a := 0) (b := roundMag (b.toNat * 2 ^ 149) 1)
  rw [unitsOfMag_zero] at this
  omega

/-- The increment of a positive rate is not negative, also where it overflows to an infinity (R184). -/
theorem fge_zero_phaseIncrement {rate sr : Word} (hrate : isFinite rate = true) (hrate0 : 0 < units rate)
    (hsr : isFinite sr = true) (hsr0 : 0 < units sr) : fge (phaseIncrement rate sr) ZERO = true := by
  obtain ⟨m, hm, hmul⟩ := fmul_of_pos (x := TWO_PI) (by decide) (by decide) hrate hrate0
  rw [phaseIncrement, hmul]
  exact fge_zero_fdiv_pack hm hsr hsr0

theorem fge_zero_wrapPhase {p : Word} (h : fge p ZERO = true) : fge (wrapPhase p) ZERO = true := by
  unfold wrapPhase
  split
  · next hge => exact fge_zero_fsub (by decide) (by decide) hge
  · exact h

/-- PHASE never becomes a NaN nor negative, whatever the rate in its domain (R198). -/
theorem fge_zero_nextPhase {phase rate sr : Word} (hphase : fge phase ZERO = true) (hrate : isFinite rate = true)
    (hrate0 : 0 < units rate) (hsr : isFinite sr = true) (hsr0 : 0 < units sr) :
    fge (nextPhase phase rate sr) ZERO = true :=
  fge_zero_wrapPhase (fge_zero_fadd hphase (fge_zero_phaseIncrement hrate hrate0 hsr hsr0))

/-! ### What a command does to the state (R142 to R144, R161, R202, R220, R221)

One equation for each command that has no error; `perform_fdlInit`, `perform_modProc` and `perform_csrWr` are the cases
of the other three. -/

section
variable (s : State)

@[simp] theorem perform_rbPush (v : Word) :
    perform s (.rbPush v) = (s.setRb (s.rb.push s.build.kRb.val v)).respond 0 false := rfl

@[simp] theorem perform_rbGet (buf : Buffer) (d : Word) :
    perform s (.rbGet buf d) = s.respond ((s.buffer buf).get (bufferExp s.build buf) d) false := rfl

@[simp] theorem perform_rbInit : perform s .rbInit = (s.setRb RingBuf.zeroFilled).respond 0 false := rfl

@[simp] theorem perform_fdlProc (x : Word) :
    perform s (.fdlProc x) = (s.setFdl (s.fdl.process s.build.kFdl.val x)).respond
      (s.fdl.output s.build.kFdl.val x) false := rfl

@[simp] theorem perform_modInitVibrato : perform s .modInitVibrato = modInit .vibrato s := rfl

@[simp] theorem perform_modInitChorus : perform s .modInitChorus = modInit .chorus s := rfl

@[simp] theorem perform_modInitFlanger : perform s .modInitFlanger = modInit .flanger s := rfl

@[simp] theorem perform_csrRd (c : Csr) : perform s (.csrRd c) = s.respond (s.csr c) false := rfl

end

@[simp] theorem storeCsr_build (s : State) (c : Csr) (v : Word) : (storeCsr s c v).build = s.build := by
  cases c <;> rfl

@[simp] theorem storeCsr_err (s : State) (c : Csr) (v : Word) : (storeCsr s c v).err = s.err := by
  cases c <;> rfl

/-- Every command ends in an error, or in a response after an update that leaves the build and the flags alone (R11,
R252). -/
theorem perform_cases (s : State) (i : Instr) :
    (∃ e, perform s i = s.raise e) ∨
    (∃ (t : State) (d : Word) (l : Bool), perform s i = t.respond d l ∧ t.build = s.build ∧ t.err = s.err) := by
  cases i with
  | rbPush v => exact .inr ⟨_, _, _, perform_rbPush s v, rfl, rfl⟩
  | rbGet buf d => exact .inr ⟨_, _, _, perform_rbGet s buf d, rfl, rfl⟩
  | rbInit => exact .inr ⟨_, _, _, perform_rbInit s, rfl, rfl⟩
  | fdlProc x => exact .inr ⟨_, _, _, perform_fdlProc s x, rfl, rfl⟩
  | fdlInit d =>
    rcases perform_fdlInit s d with ⟨e, -, h⟩ | ⟨-, h⟩
    · exact .inl ⟨e, h⟩
    · exact .inr ⟨_, _, _, h, rfl, rfl⟩
  | modProc l x b =>
    rcases perform_modProc s l x b with ⟨-, h⟩ | ⟨-, h⟩
    · exact .inl ⟨_, h⟩
    · exact .inr ⟨_, _, _, h, rfl, rfl⟩
  | modInitVibrato => exact .inr ⟨_, _, _, perform_modInitVibrato s, rfl, rfl⟩
  | modInitChorus => exact .inr ⟨_, _, _, perform_modInitChorus s, rfl, rfl⟩
  | modInitFlanger => exact .inr ⟨_, _, _, perform_modInitFlanger s, rfl, rfl⟩
  | csrRd c => exact .inr ⟨_, _, _, perform_csrRd s c, rfl, rfl⟩
  | csrWr c v =>
    rcases perform_csrWr s c v with ⟨e, -, h⟩ | ⟨-, h⟩
    · exact .inl ⟨e, h⟩
    · exact .inr ⟨_, _, _, h, storeCsr_build s c v, storeCsr_err s c v⟩

/-- No command changes the build (R29). -/
@[simp] theorem perform_build (s : State) (i : Instr) : (perform s i).build = s.build := by
  obtain ⟨e, h⟩ | ⟨t, d, l, h, hbuild, -⟩ := perform_cases s i
  · rw [h, State.raise_build]
  · rw [h, State.respond_build, hbuild]

/-- What the state after a step can be. -/
theorem step_next_cases {s t : State} (h : step s = .next t) :
    t = s ∨
    (∃ rest, t = { s with inputs := rest }.deliver) ∨
    (∃ rest, s.inputs = .assertReset :: rest ∧ t = { s with inputs := rest }.assertReset) ∨
    (∃ rest i, t = perform { s with inputs := rest } i) ∨
    (∃ rest, t = { s with inputs := rest }.raise .illegal) := by
  rcases step_cases s with ⟨-, hs⟩ | ⟨rest, -, hs⟩ | ⟨rest, hin, hs⟩ |
      ⟨w, rest, i, -, -, hs⟩ | ⟨w, rest, why, -, -, hs⟩ <;>
    rw [hs, Host.Outcome.next.injEq] at h
  · exact .inl h.symm
  · exact .inr (.inl ⟨rest, h.symm⟩)
  · exact .inr (.inr (.inl ⟨rest, hin, h.symm⟩))
  · exact .inr (.inr (.inr (.inl ⟨rest, i, h.symm⟩)))
  · exact .inr (.inr (.inr (.inr ⟨rest, h.symm⟩)))

theorem step_assertReset {s : State} {rest : List HostEvent} (h : s.inputs = .assertReset :: rest) :
    step s = .next ({ s with inputs := rest }.assertReset) := by simp only [step, State.fetch, h]

/-- No step changes the build (R29). -/
theorem step_build {s t : State} (h : step s = .next t) : t.build = s.build := by
  obtain rfl | ⟨rest, rfl⟩ | ⟨rest, -, rfl⟩ | ⟨rest, i, rfl⟩ | ⟨rest, rfl⟩ := step_next_cases h
  · rfl
  · exact (State.deliver_frame _).1
  · rfl
  · exact perform_build _ i
  · rfl

/-! ### Sticky flags (R32, R264) -/

theorem ErrFlags.get_clear (e : ErrCode) : ErrFlags.clear.get e = false := by cases e <;> rfl

/-- Setting a flag clears none. -/
theorem ErrFlags.get_set_of_get {f : ErrFlags} {e : ErrCode} (e' : ErrCode) (h : f.get e = true) :
    (f.set e').get e = true := by
  by_cases he : e = e'
  · rw [he, ErrFlags.get_set_same]
  · rw [ErrFlags.get_set_of_ne f he, h]

theorem perform_err_of_get {s : State} {e : ErrCode} (i : Instr) (h : s.err.get e = true) :
    (perform s i).err.get e = true := by
  obtain ⟨e', hp⟩ | ⟨t, d, l, hp, -, herr⟩ := perform_cases s i
  · rw [hp, State.raise_err]
    exact ErrFlags.get_set_of_get e' h
  · rw [hp, State.respond_err, herr, h]

/-! ### CAP and STATUS as numbers (R31, R32) -/

/-- Concatenation is addition of the shifted high part. -/
theorem toNat_append_eq_add {m n : Nat} (x : BitVec m) (y : BitVec n) :
    (x ++ y).toNat = x.toNat * 2 ^ n + y.toNat := by
  rw [BitVec.toNat_append, ← Nat.shiftLeft_add_eq_or_of_lt y.isLt, Nat.shiftLeft_eq]

theorem kMod_lt (b : Build) : b.kMod < 32 := by
  have := b.kModLess2.isLt
  rw [Build.kMod]
  omega

theorem toNat_capWord (b : Build) :
    (capWord b).toNat = b.kRb.val + b.kFdl.val * 2 ^ 8 + b.kMod * 2 ^ 16 + 2 ^ 24 := by
  have h : (capWord b).toNat = (1#8 ++ 0#3 ++ BitVec.ofNat 5 b.kMod ++ 0#3 ++ BitVec.ofNat 5 b.kFdl.val ++ 0#3 ++
    BitVec.ofNat 5 b.kRb.val).toNat := rfl
  have hrb := b.kRb.isLt
  have hfdl := b.kFdl.isLt
  have hmod := kMod_lt b
  rw [h]
  simp only [toNat_append_eq_add, BitVec.toNat_ofNat]
  omega

/-- A field of CAP is a run of digits of the number that CAP is. -/
theorem toNat_extractLsb'_capWord (b : Build) (lo len : Nat) : ((capWord b).extractLsb' lo len).toNat =
    (b.kRb.val + b.kFdl.val * 2 ^ 8 + b.kMod * 2 ^ 16 + 2 ^ 24) / 2 ^ lo % 2 ^ len := by
  rw [BitVec.extractLsb'_toNat, toNat_capWord, Nat.shiftRight_eq_div_pow]

theorem capWord_eq_ofNat (b : Build) :
    capWord b = BitVec.ofNat 32 (b.kRb.val + b.kFdl.val * 2 ^ 8 + b.kMod * 2 ^ 16 + 2 ^ 24) := by
  rw [← toNat_capWord, BitVec.ofNat_toNat, BitVec.setWidth_eq]

theorem toNat_flagBit (b : Bool) : (flagBit b).toNat = b.toNat := BitVec.toNat_ofBool b

theorem toNat_statusWord (f : ErrFlags) (firstDone logged : Bool) :
    (statusWord f firstDone logged).toNat = f.illegal.toNat * 2 + f.delay.toNat * 2 ^ 2 + f.nonfinite.toNat * 2 ^ 3 +
      f.range.toNat * 2 ^ 4 + f.srate.toNat * 2 ^ 5 + f.ro.toNat * 2 ^ 6 + firstDone.toNat * 2 ^ 8 +
      logged.toNat * 2 ^ 9 := by
  have h : (statusWord f firstDone logged).toNat = (0#22 ++ flagBit logged ++ flagBit firstDone ++ 0#1 ++
    flagBit f.ro ++ flagBit f.srate ++ flagBit f.range ++ flagBit f.nonfinite ++ flagBit f.delay ++
    flagBit f.illegal ++ 0#1).toNat := rfl
  rw [h]
  simp only [toNat_append_eq_add, toNat_flagBit, BitVec.toNat_ofNat]
  omega

/-! ### History after a push (R22, R44, R141) -/

/-- The slot of a delay is the one that many places behind `widx`, modulo the capacity. -/
theorem RingBuf.slotOf_add_delay (b : RingBuf) (d : Word) {k : Nat} (hk : k ≤ 31) :
    (b.slotOf k d).toNat + d.toNat ≡ b.widx.toNat [MOD 2 ^ k] := by
  have hlt : d.toNat % 2 ^ k < 2 ^ k := Nat.mod_lt _ (Nat.two_pow_pos k)
  have hslot : (b.slotOf k d).toNat ≡ b.widx.toNat + (2 ^ k - d.toNat % 2 ^ k) [MOD 2 ^ k] := by
    rw [b.toNat_slotOf d hk]
    exact Nat.mod_modEq _ _
  calc (b.slotOf k d).toNat + d.toNat
      ≡ b.widx.toNat + (2 ^ k - d.toNat % 2 ^ k) + d.toNat % 2 ^ k [MOD 2 ^ k] :=
        hslot.add (Nat.mod_modEq _ _).symm
    _ = b.widx.toNat + 2 ^ k := by omega
    _ ≡ b.widx.toNat [MOD 2 ^ k] := Nat.add_modEq_right

theorem toNat_add_one_modEq (d : Word) {k : Nat} (hk : k ≤ 31) : (d + 1).toNat ≡ d.toNat + 1 [MOD 2 ^ k] := by
  rw [BitVec.toNat_add]
  exact (Nat.mod_modEq _ _).of_dvd (Nat.pow_dvd_pow 2 (by omega))

/-- One push later, one delay further is the same slot. -/
theorem RingBuf.slotOf_push_succ (b : RingBuf) (v d : Word) {k : Nat} (hk : k ≤ 31) :
    ((b.push k v).slotOf k (d + 1)).toNat = (b.slotOf k d).toNat := by
  have hpush : ((b.push k v).slotOf k (d + 1)).toNat + (d.toNat + 1) ≡ b.widx.toNat + 1 [MOD 2 ^ k] :=
    calc _ ≡ ((b.push k v).slotOf k (d + 1)).toNat + (d + 1).toNat [MOD 2 ^ k] :=
          (toNat_add_one_modEq d hk).symm.add_left _
      _ ≡ (b.push k v).widx.toNat [MOD 2 ^ k] := slotOf_add_delay _ _ hk
      _ ≡ b.widx.toNat + 1 [MOD 2 ^ k] := by
          rw [push_widx, toNat_idxSucc _ hk]
          exact Nat.mod_modEq _ _
  have hsum : ((b.push k v).slotOf k (d + 1)).toNat + d.toNat ≡ (b.slotOf k d).toNat + d.toNat [MOD 2 ^ k] :=
    (hpush.add_right_cancel' 1).trans (slotOf_add_delay b d hk).symm
  exact (hsum.add_right_cancel' _).eq_of_lt_of_lt (slotOf_lt _ _ hk) (slotOf_lt _ _ hk)

/-- The slot of a delay is the write index iff the delay is a multiple of the capacity. -/
theorem RingBuf.slotOf_eq_widx_iff {b : RingBuf} (d : Word) {k : Nat} (hk : k ≤ 31) (hw : b.widx.toNat < 2 ^ k) :
    (b.slotOf k d).toNat = b.widx.toNat ↔ d.toNat % 2 ^ k = 0 := by
  have hadd := slotOf_add_delay b d hk
  constructor
  · intro h
    rw [h] at hadd
    have hzero : b.widx.toNat + d.toNat ≡ b.widx.toNat + 0 [MOD 2 ^ k] := hadd
    exact hzero.add_left_cancel' _
  · intro h
    have hzero : d.toNat ≡ 0 [MOD 2 ^ k] := h
    exact ((hzero.add_left _).symm.trans hadd).eq_of_lt_of_lt (slotOf_lt _ _ hk) hw

/-- What a push does to the history: the newest value at delay 1, every other value one delay further (R22, R141). -/
theorem RingBuf.get_push_succ {b : RingBuf} (v d : Word) {k : Nat} (hk : k ≤ 31) (hw : b.widx.toNat < 2 ^ k) :
    (b.push k v).get k (d + 1) = if d.toNat % 2 ^ k = 0 then v else b.get k d := by
  rw [get_push, slotOf_push_succ b v d hk]
  simp only [slotOf_eq_widx_iff d hk hw, RingBuf.get]

theorem RingBuf.push_widx_lt (b : RingBuf) (v : Word) {k : Nat} (hk : k ≤ 31) : (b.push k v).widx.toNat < 2 ^ k := by
  rw [push_widx, toNat_idxSucc _ hk]
  exact Nat.mod_lt _ (Nat.two_pow_pos k)

/-- Two buffers with one history still have one history after the same pushes. -/
theorem RingBuf.get_foldl_push_congr {k : Nat} (hk : k ≤ 31) (vs : List Word) {b c : RingBuf}
    (hb : b.widx.toNat < 2 ^ k) (hc : c.widx.toNat < 2 ^ k) (h : ∀ d, b.get k d = c.get k d) (d : Word) :
    (vs.foldl (RingBuf.push k) b).get k d = (vs.foldl (RingBuf.push k) c).get k d := by
  induction vs generalizing b c with
  | nil => exact h d
  | cons v vs ih =>
    refine ih (push_widx_lt b v hk) (push_widx_lt c v hk) fun d => ?_
    rw [← BitVec.sub_add_cancel d 1, get_push_succ v _ hk hb, get_push_succ v _ hk hc, h]

/-! ### The invariant, unit by unit (R45) -/

theorem kMod_le (b : Build) : b.kMod ≤ 31 := Nat.le_of_lt_succ (kMod_lt b)

theorem FdlUnit.initial_inv {k : Nat} {d : Word} (h : d.toNat < 2 ^ k) : (FdlUnit.initial d).Inv k :=
  ⟨RingBuf.zeroFilled_wf k, RingBuf.zeroFilled_wf k, rfl, h⟩

theorem ModUnit.initial_inv (k : Nat) (v : Variant) : (ModUnit.initial v).Inv k :=
  ⟨RingBuf.zeroFilled_wf k, by cases v <;> decide, fun h => Bool.noConfusion h,
    fun _ => ⟨rfl, rfl⟩, (by decide : fge ZERO ZERO = true)⟩

/-- FDL.INIT constructs the unit as reset does, with its delay (R163). -/
@[simp] theorem fdlConstruct_eq_initial (d : Word) : fdlConstruct d = FdlUnit.initial d := rfl

/-- MOD.INIT constructs the unit as reset does, as its variant (R202). -/
@[simp] theorem modConstruct_eq_initial (v : Variant) : modConstruct v = ModUnit.initial v := rfl

theorem FdlUnit.process_inv {k : Nat} {u : FdlUnit} (x : Word) (hk : k ≤ 31) (h : u.Inv k) :
    (u.process k x).Inv k := by
  obtain ⟨hih, hoh, hwidx, hdelay⟩ := h
  refine ⟨RingBuf.push_wf x hk hih, RingBuf.push_wf _ hk hoh, ?_, hdelay⟩
  simp only [FdlUnit.process, RingBuf.push_widx, hwidx]

theorem ModUnit.process_inv {k : Nat} {u : ModUnit} {sr : Word} (l : Bool) (x : Word) (hk : k ≤ 31) (h : u.Inv k)
    (hsr : isFinite sr = true ∧ 0 < units sr) : (u.process k l x sr).Inv k := by
  obtain ⟨hmh, hparams, -, hlog, hphase⟩ := h
  have ⟨⟨hrate, hrate0⟩, _, _⟩ := hparams
  refine ⟨RingBuf.push_wf x hk hmh, hparams, fun _ => rfl, fun hlogged => ?_,
    fge_zero_nextPhase hphase hrate ((fgt_zero_iff _).1 hrate0).2 hsr.1 hsr.2⟩
  obtain ⟨hwas, hrec⟩ : u.logged = false ∧ u.records l = false := by
    simpa [ModUnit.process, Bool.or_eq_false_iff] using hlogged
  simpa [ModUnit.process, hrec] using hlog hwas

/-- A value that passes the check of its register may be stored: the invariant asks no more (R45 (b), (d), R223). -/
theorem storeCsr_inv {s : State} {c : Csr} {v : Word} (h : s.Inv) (hv : writeError s c v = none) :
    (storeCsr s c v).Inv := by
  have ⟨hrb, hfdl, hmod⟩ := h
  have ⟨hih, hoh, hwidx, _⟩ := hfdl
  have ⟨hmh, ⟨hrate, hdepth, hmix⟩, hrest⟩ := hmod
  cases c with
  | fdlDelay => exact ⟨hrb, ⟨hih, hoh, hwidx, delayError_none.1 hv⟩, hmod⟩
  | fdlWet => exact h
  | fdlFb => exact h
  | modRate => exact ⟨hrb, hfdl, hmh, ⟨parameterError_none.1 hv, hdepth, hmix⟩, hrest⟩
  | modDepth => exact ⟨hrb, hfdl, hmh, ⟨hrate, parameterError_none.1 hv, hmix⟩, hrest⟩
  | modMix =>
    obtain ⟨hfinite, hdomain⟩ := parameterError_none.1 hv
    exact ⟨hrb, hfdl, hmh, ⟨hrate, hdepth, hfinite, Bool.and_eq_true_iff.1 hdomain⟩, hrest⟩
  | _ => cases hv

/-! ### The invariant, command by command and step by step (R45) -/

theorem modInit_inv {s : State} (v : Variant) (h : s.Inv) : (modInit v s).Inv :=
  have ⟨hrb, hfdl, _⟩ := h
  ⟨hrb, hfdl, ModUnit.initial_inv _ v⟩

theorem State.resetOf_inv (b : Build) : (State.resetOf b).Inv :=
  ⟨RingBuf.zeroFilled_wf _, FdlUnit.initial_inv (Nat.two_pow_pos _), ModUnit.initial_inv _ _⟩

/-- Every command keeps the invariant. -/
theorem perform_inv {s : State} (i : Instr) (h : s.Inv) : (perform s i).Inv := by
  have ⟨hrb, hfdl, hmod⟩ := h
  have hkRb := Nat.le_of_lt_succ s.build.kRb.isLt
  have hkFdl := Nat.le_of_lt_succ s.build.kFdl.isLt
  cases i with
  | rbPush v => exact ⟨RingBuf.push_wf v hkRb hrb, hfdl, hmod⟩
  | rbGet buf d => exact h
  | rbInit => exact ⟨RingBuf.zeroFilled_wf _, hfdl, hmod⟩
  | fdlProc x => exact ⟨hrb, FdlUnit.process_inv x hkFdl hfdl, hmod⟩
  | fdlInit d =>
    rcases perform_fdlInit s d with ⟨e, -, hp⟩ | ⟨hd, hp⟩ <;> rw [hp]
    · exact h
    · exact ⟨hrb, FdlUnit.initial_inv (delayError_none.1 hd), hmod⟩
  | modProc l x b =>
    rcases perform_modProc s l x b with ⟨-, hp⟩ | ⟨hb, hp⟩ <;> rw [hp]
    · exact h
    · exact ⟨hrb, hfdl, ModUnit.process_inv l x (kMod_le s.build) hmod (u2f_pos hb)⟩
  | modInitVibrato => exact modInit_inv _ h
  | modInitChorus => exact modInit_inv _ h
  | modInitFlanger => exact modInit_inv _ h
  | csrRd c => exact h
  | csrWr c v =>
    rcases perform_csrWr s c v with ⟨e, -, hp⟩ | ⟨hv, hp⟩ <;> rw [hp]
    · exact h
    · exact storeCsr_inv h hv

theorem State.deliver_inv {s : State} (h : s.Inv) : s.deliver.Inv := by
  obtain ⟨hbuild, hrb, hfdl, hmod, -⟩ := s.deliver_frame
  rw [State.Inv, hbuild, hrb, hfdl, hmod]
  exact h

/-! ### The obligations -/

/-- Settles O48, by the cases of a step: the invariant speaks of the units only, which a delivery and an illegal word
leave alone; reset establishes it, and every command keeps it. -/
theorem stepKeepsInvariant : Obligations.StepKeepsInvariant := by
  intro s t hinv hstep
  obtain rfl | ⟨rest, rfl⟩ | ⟨rest, -, rfl⟩ | ⟨rest, i, rfl⟩ | ⟨rest, rfl⟩ := step_next_cases hstep
  · exact hinv
  · exact State.deliver_inv (s := { s with inputs := rest }) hinv
  · exact State.resetOf_inv s.build
  · exact perform_inv (s := { s with inputs := rest }) i hinv
  · exact hinv

/-- Settles O16: two empty buffers have one history, all zero, whatever their write indices. -/
theorem startingIndexUnobservable : Obligations.StartingIndexUnobservable :=
  fun _ w w' vs d hk hw hw' =>
    RingBuf.get_foldl_push_congr hk vs (b := ⟨[], w⟩) (c := ⟨[], w'⟩) hw hw' (fun _ => rfl) d

/-- Settles O17, by `RingBuf.get_push_succ` at delay 0 and at a delay below the capacity. -/
theorem pushShiftsHistory : Obligations.PushShiftsHistory := by
  refine fun k b v hk hw => ⟨?_, fun d h1 hd => ?_⟩
  · simpa using RingBuf.get_push_succ v 0 hk hw
  · rw [RingBuf.get_push_succ v d hk hw, Nat.mod_eq_of_lt hd, if_neg (by omega)]

/-- Settles O37, by the registers: CAP and STATUS are the sums of their fields, every other register is a field of the
state. -/
theorem csrRdReturnsRegister : Obligations.CsrRdReturnsRegister := by
  intro s c
  rw [exec_eq_perform, perform_csrRd]
  cases c with
  | cap => rw [State.csr, capWord_eq_ofNat]; rfl
  | status =>
    rw [← toNat_statusWord, BitVec.ofNat_toNat, BitVec.setWidth_eq]; rfl
  | _ => rfl

/-- Settles O38: the fields are digits of the number that CAP is, and no step changes the build it reports. -/
theorem capReportsBuild : Obligations.CapReportsBuild := by
  refine ⟨fun s => ?_, fun s hb => ?_, fun _ _ => rfl, fun s t hstep => ?_⟩
  · have hrb := s.build.kRb.isLt
    have hfdl := s.build.kFdl.isLt
    have hmod := kMod_lt s.build
    have hzero : (0 : BitVec 3).toNat = 0 := rfl
    have hone : (1 : BitVec 8).toNat = 1 := rfl
    refine ⟨?_, BitVec.eq_of_toNat_eq ?_, ?_, BitVec.eq_of_toNat_eq ?_, ?_, BitVec.eq_of_toNat_eq ?_,
      BitVec.eq_of_toNat_eq ?_⟩ <;> simp only [State.csr, toNat_extractLsb'_capWord, hzero, hone] <;> omega
  · rw [State.csr, hb]; decide
  · rw [State.csr, State.csr, step_build hstep]

/-- Settles O39: the bits are the binary digits of the number that STATUS is, which is below 2^10. -/
theorem statusBits : Obligations.StatusBits := by
  intro s n
  have hillegal := Bool.toNat_le s.err.illegal
  have hdelay := Bool.toNat_le s.err.delay
  have hnonfinite := Bool.toNat_le s.err.nonfinite
  have hrange := Bool.toNat_le s.err.range
  have hsrate := Bool.toNat_le s.err.srate
  have hro := Bool.toNat_le s.err.ro
  have hfirstDone := Bool.toNat_le s.mod.firstDone
  have hlogged := Bool.toNat_le s.mod.logged
  rw [State.csr, BitVec.getLsbD, toNat_statusWord]
  match n with
  | 0 | 1 | 2 | 3 | 4 | 5 | 6 | 7 | 8 | 9 =>
    rw [Nat.testBit_eq_decide_div_mod_eq, Bool.eq_iff_iff, decide_eq_true_iff, ← Bool.toNat_eq_one]
    simp only [Bool.toNat_false]
    omega
  | n + 10 =>
    refine Nat.testBit_lt_two_pow (Nat.lt_of_lt_of_le ?_ (Nat.pow_le_pow_right (by decide) (Nat.le_add_left 10 n)))
    omega

/-- Settles O44, by the cases of a step: a delivery keeps the flags, a command or an illegal word sets at most one. -/
theorem stickyFlagsStaySet : Obligations.StickyFlagsStaySet := by
  intro s t e hstep hset hnoReset
  obtain rfl | ⟨rest, rfl⟩ | ⟨rest, hin, -⟩ | ⟨rest, i, rfl⟩ | ⟨rest, rfl⟩ := step_next_cases hstep
  · exact hset
  · obtain ⟨-, -, -, -, herr, -⟩ := State.deliver_frame { s with inputs := rest }
    rwa [herr]
  · exact absurd hin (hnoReset rest)
  · exact perform_err_of_get (s := { s with inputs := rest }) i hset
  · exact ErrFlags.get_set_of_get .illegal hset

/-- Settles O46, by the commands: the equations of `perform` say which unit each replaces, and `storeCsr` which
parameter. -/
theorem eachStateHasItsWriters : Obligations.EachStateHasItsWriters := by
  intro i s t h
  rw [exec_eq_perform, Host.Outcome.next.injEq] at h
  subst h
  cases i with
  | rbPush v => simp
  | rbGet buf d => simp
  | rbInit => simp
  | fdlProc x => simp [FdlUnit.process]
  | fdlInit d => rcases perform_fdlInit s d with ⟨e, -, h⟩ | ⟨-, h⟩ <;> simp [h]
  | modProc l x b => rcases perform_modProc s l x b with ⟨-, h⟩ | ⟨-, h⟩ <;> simp [h, ModUnit.process]
  | modInitVibrato => simp [modInit]
  | modInitChorus => simp [modInit]
  | modInitFlanger => simp [modInit]
  | csrRd c => simp
  | csrWr c v =>
    rcases perform_csrWr s c v with ⟨e, -, h⟩ | ⟨-, h⟩
    · simp [h]
    · cases c <;> simp [h, storeCsr]

/-- Settles O9: the step is `State.assertReset`, whose units are those of the reset state. -/
theorem resetPinGivesResetValues : Obligations.ResetPinGivesResetValues := by
  intro s rest hin
  refine ⟨_, step_assertReset hin, ⟨fun _ => rfl, rfl⟩, ⟨fun _ => rfl, rfl, fun _ => rfl, rfl, rfl, rfl, rfl⟩,
    ⟨fun _ => rfl, rfl, rfl, rfl, rfl, rfl, rfl, rfl, rfl, rfl, rfl⟩, ErrFlags.get_clear, rfl, rfl, rfl, rfl⟩

/-- Settles O19: RB.GET answers the slot of R61 of the buffer its number names. -/
theorem rbGetEffect : Obligations.RbGetEffect :=
  fun _ _ => ⟨rfl, rfl, rfl, rfl⟩

/-- Settles O47: the reset state is empty buffers and the initial units. -/
theorem invariantHoldsAtReset : Obligations.InvariantHoldsAtReset :=
  ⟨State.resetOf_inv, State.resetOf_inv Config.build⟩

/-- Settles O49, field by field. -/
theorem resetStateValues : Obligations.ResetStateValues :=
  ⟨fun _ => ⟨fun buf _ => by cases buf <;> exact ⟨rfl, rfl⟩,
    rfl, rfl, rfl, rfl, rfl, rfl, rfl, rfl, rfl, rfl, rfl, rfl, rfl, ErrFlags.get_clear⟩, Config.build, rfl⟩

end Sys2Proof.Machine
end

section
/-!
PROOFS. The effective addresses of a buffer (R61).
-/

namespace Sys2Proof.Machine

/-- Settles O13: `(widx - (d & m)) & m` is `RingBuf.slotOf`, whose value and bound are `RingBuf.toNat_slotOf` and
`RingBuf.slotOf_lt`. -/
theorem effectiveAddressStaysInBuffer : Obligations.EffectiveAddressStaysInBuffer := by
  rintro k b v d m hk - rfl
  exact ⟨RingBuf.push_mem k b v, rfl, b.toNat_slotOf d hk, b.slotOf_lt d hk⟩

end Sys2Proof.Machine
end

section
/-!
PROOFS. The command word and the response word (R81 to R91): decode, encode, the rows of R85 and the checks of R88
describe the same words, and every command forms one response of the form of R82.
-/

namespace Sys2Proof

/-! ### Decode and encode (R84, R87, R91) -/

theorem decodeFields_fields (i : Instr) : decodeFields i.fields = .ok i := by
  cases i with
  | modProc logging x sr => cases logging <;> rfl
  | rbGet buf d => cases buf <;> rfl
  | csrRd c => cases c <;> rfl
  | csrWr c v => cases c <;> rfl
  | _ => rfl

/-- Fields that spell a command are that command's fields: `decodeFields` looks at every field it does not hand on. -/
theorem fields_of_decodeFields {f : Fields} {i : Instr} (h : decodeFields f = .ok i) : i.fields = f := by
  obtain ⟨op, sel, a, b⟩ := f
  match ho : Op.ofBits op with
  | none => simp [decodeFields, ho] at h
  | some o =>
    obtain rfl := Op.bits_of_ofBits op o ho
    cases o <;> simp only [decodeFields, Op.ofBits_bits, ite_eq_iff, mustBeZero_ok, Except.ok.injEq, reduceCtorEq,
      and_false, or_false] at h
    case rbPush | fdlProc | fdlInit =>
      obtain ⟨rfl, rfl, rfl⟩ := h
      rfl
    case rbGet =>
      match hb : Buffer.ofSel sel with
      | none => simp only [hb, reduceCtorEq] at h
      | some buf =>
        simp only [hb, mustBeZero_ok, Except.ok.injEq] at h
        obtain ⟨rfl, rfl⟩ := h
        simp only [Instr.fields, Buffer.sel_of_ofSel sel buf hb]
    case rbInit =>
      obtain ⟨rfl, rfl, rfl, rfl⟩ := h
      rfl
    case modProc =>
      obtain ⟨rfl, rfl⟩ | ⟨-, rfl, rfl⟩ := h <;> rfl
    case modInit =>
      obtain ⟨rfl, rfl, rfl, rfl⟩ | ⟨-, ⟨rfl, rfl, rfl, rfl⟩ | ⟨-, rfl, rfl, rfl, rfl⟩⟩ := h <;> rfl
    case csrRd =>
      obtain ⟨rfl, rfl, rfl⟩ := h
      simp only [Instr.fields, Csr.sel_ofSel]
    case csrWr =>
      obtain ⟨rfl, rfl⟩ := h
      simp only [Instr.fields, Csr.sel_ofSel]

/-- Decode is the inverse of `Instr.fields` on the fields of a word. -/
theorem decode_eq_ok_iff_fields {w : CmdWord} {i : Instr} : decode w = .ok i ↔ i.fields = Fields.ofWord w :=
  ⟨fields_of_decodeFields, fun h => by rw [decode, ← h, decodeFields_fields]⟩

/-- A word decodes to a command exactly if it is that command's word (R86, R91). -/
theorem decode_eq_ok_iff {w : CmdWord} {i : Instr} : decode w = .ok i ↔ encode i = w := by
  rw [decode_eq_ok_iff_fields, encode]
  constructor
  · intro h; rw [h, Fields.toWord_ofWord]
  · intro h; rw [← h, Fields.ofWord_toWord]

/-- Decode refuses exactly the words that are no command's fields. -/
theorem exists_decode_eq_error_iff (w : CmdWord) :
    (∃ why, decode w = .error why) ↔ ¬ ∃ i : Instr, i.fields = Fields.ofWord w := by
  simp only [← decode_eq_ok_iff_fields]
  cases decode w <;> simp

/-! ### The checks of R88 -/

/-- Every code but 0 and 10 to 15 is the code of an operation (R84, R88 (a)). -/
theorem Op.ofBits_eq_none_iff : ∀ v : BitVec 4, Op.ofBits v = none ↔ v.toNat = 0 ∨ 10 ≤ v.toNat := by decide

/-- A sel within its range, operation code by operation code (R88 (b), (c)). -/
theorem Fields.sel_le_selMax_iff (f : Fields) : f.sel.toNat ≤ f.selMax ↔
    f.sel.toNat = 0 ∨ (f.op.toNat = 2 ∧ f.sel.toNat ≤ 3) ∨ (f.op.toNat = 6 ∧ f.sel.toNat ≤ 1) ∨
      (f.op.toNat = 7 ∧ f.sel.toNat ≤ 2) ∨ f.op.toNat = 8 ∨ f.op.toNat = 9 := by
  have := f.sel.isLt
  unfold Fields.selMax
  split
  case h_6 => grind
  all_goals omega

/-- The four checks of R88 as one condition on the fields. -/
theorem Fields.wellFormed_iff (f : Fields) : f.wellFormed = true ↔
    ¬(f.op.toNat = 0 ∨ 10 ≤ f.op.toNat) ∧ f.sel.toNat ≤ f.selMax ∧
      (f.a = 0 ∨ f.op.toNat = 1 ∨ f.op.toNat = 4 ∨ f.op.toNat = 6 ∨ f.op.toNat = 9) ∧
      (f.b = 0 ∨ f.op.toNat = 2 ∨ f.op.toNat = 5 ∨ f.op.toNat = 6) := by
  simp [Fields.wellFormed, Fields.opReserved, Fields.selLegal, Fields.aLegal, Fields.bLegal, and_assoc, or_assoc]

/-- The fields of a command pass every check of R88. -/
theorem fields_wellFormed (i : Instr) : i.fields.wellFormed = true := by
  rw [Fields.wellFormed_iff]
  cases i with
  | rbGet buf d => cases buf <;> simp [Instr.fields, Op.bits, Fields.selMax, Buffer.sel]
  | modProc logging x sr => cases logging <;> simp [Instr.fields, Op.bits, Fields.selMax]
  | csrRd c | csrWr c v =>
    have := c.sel.isLt
    simp [Instr.fields, Op.bits, Fields.selMax]
    omega
  | _ => simp [Instr.fields, Op.bits, Fields.selMax]

/-- A `sel` of at most 3 is a buffer number (R20). -/
theorem Buffer.exists_sel_eq {v : BitVec 4} (h : v.toNat ≤ 3) : ∃ b : Buffer, b.sel = v := by
  have hsome : ∀ v : BitVec 4, v.toNat ≤ 3 → (Buffer.ofSel v).isSome = true := by decide
  obtain ⟨b, hb⟩ := Option.isSome_iff_exists.1 (hsome v h)
  exact ⟨b, Buffer.sel_of_ofSel v b hb⟩

/-- A `sel` of at most 1 is a log flag (R84). -/
theorem sel_le_one : ∀ {v : BitVec 4}, v.toNat ≤ 1 → v = 0 ∨ v = 1 := by decide

/-- A `sel` of at most 2 is a variant number (R203). -/
theorem sel_le_two : ∀ {v : BitVec 4}, v.toNat ≤ 2 → v = 0 ∨ v = 1 ∨ v = 2 := by decide

/-- Fields that pass every check of R88 are the fields of a command. -/
theorem exists_fields_of_wellFormed {f : Fields} (h : f.wellFormed = true) : ∃ i : Instr, i.fields = f := by
  obtain ⟨hop, hsel, ha, hb⟩ := f.wellFormed_iff.1 h
  obtain ⟨op, sel, a, b⟩ := f
  match ho : Op.ofBits op with
  | none => exact absurd ((Op.ofBits_eq_none_iff op).1 ho) hop
  | some o =>
    obtain rfl := Op.bits_of_ofBits op o ho
    cases o with
    | rbPush =>
      obtain ⟨rfl, rfl⟩ : sel = 0 ∧ b = 0 := by
        simpa [Fields.wellFormed_iff, Fields.selMax, Op.bits, ← BitVec.toNat_inj] using h
      exact ⟨.rbPush a, rfl⟩
    | rbGet =>
      obtain ⟨hsel, rfl⟩ : sel.toNat ≤ 3 ∧ a = 0 := by
        simpa [Fields.wellFormed_iff, Fields.selMax, Op.bits] using h
      obtain ⟨buf, rfl⟩ := Buffer.exists_sel_eq hsel
      exact ⟨.rbGet buf b, rfl⟩
    | rbInit =>
      obtain ⟨rfl, rfl, rfl⟩ : sel = 0 ∧ a = 0 ∧ b = 0 := by
        simpa [Fields.wellFormed_iff, Fields.selMax, Op.bits, ← BitVec.toNat_inj] using h
      exact ⟨.rbInit, rfl⟩
    | fdlProc =>
      obtain ⟨rfl, rfl⟩ : sel = 0 ∧ b = 0 := by
        simpa [Fields.wellFormed_iff, Fields.selMax, Op.bits, ← BitVec.toNat_inj] using h
      exact ⟨.fdlProc a, rfl⟩
    | fdlInit =>
      obtain ⟨rfl, rfl⟩ : sel = 0 ∧ a = 0 := by
        simpa [Fields.wellFormed_iff, Fields.selMax, Op.bits, ← BitVec.toNat_inj] using h
      exact ⟨.fdlInit b, rfl⟩
    | modProc =>
      obtain rfl | rfl := sel_le_one (v := sel) (by
        simpa [Fields.wellFormed_iff, Fields.selMax, Op.bits] using h)
      · exact ⟨.modProc false a b, rfl⟩
      · exact ⟨.modProc true a b, rfl⟩
    | modInit =>
      obtain ⟨hsel, rfl, rfl⟩ : sel.toNat ≤ 2 ∧ a = 0 ∧ b = 0 := by
        simpa [Fields.wellFormed_iff, Fields.selMax, Op.bits] using h
      obtain rfl | rfl | rfl := sel_le_two hsel
      · exact ⟨.modInitVibrato, rfl⟩
      · exact ⟨.modInitChorus, rfl⟩
      · exact ⟨.modInitFlanger, rfl⟩
    | csrRd =>
      obtain ⟨-, rfl, rfl⟩ : sel.toNat ≤ 15 ∧ a = 0 ∧ b = 0 := by
        simpa [Fields.wellFormed_iff, Fields.selMax, Op.bits] using h
      exact ⟨.csrRd (Csr.ofSel sel), by rw [Instr.fields, Csr.sel_ofSel]⟩
    | csrWr =>
      obtain ⟨-, rfl⟩ : sel.toNat ≤ 15 ∧ b = 0 := by
        simpa [Fields.wellFormed_iff, Fields.selMax, Op.bits] using h
      exact ⟨.csrWr (Csr.ofSel sel) a, by rw [Instr.fields, Csr.sel_ofSel]⟩

/-- The fields of a command are exactly those that pass every check of R88. -/
theorem exists_fields_eq_iff (f : Fields) : (∃ i : Instr, i.fields = f) ↔ f.wellFormed = true := by
  refine ⟨?_, exists_fields_of_wellFormed⟩
  rintro ⟨i, rfl⟩
  exact fields_wellFormed i

/-! ### The match and mask table (R85) -/

theorem sel_and_fifteen : ∀ v : BitVec 4, v &&& 15 = v := by decide

theorem word_and_ones (v : Word) : v &&& 0xFFFFFFFF = v := BitVec.and_allOnes

/-- The mask of RB.GET leaves the two low bits of `sel`. -/
theorem le_three_of_and_twelve : ∀ {v : BitVec 4}, v &&& 12 = 0 → v.toNat ≤ 3 := by decide

/-- The mask of MOD.PROC leaves the low bit of `sel`. -/
theorem le_one_of_and_fourteen : ∀ {v : BitVec 4}, v &&& 14 = 0 → v.toNat ≤ 1 := by decide

/-- What a row with mask fields `m` and value fields `v` asks of a word's fields. -/
theorem fields_of_accepts {p : Pattern} {f : Fields} (m v : Fields) (hp : some (Pattern.mk m.toWord v.toWord) = some p)
    (h : p.accepts f.toWord = true) :
    f.op &&& m.op = v.op ∧ f.sel &&& m.sel = v.sel ∧ f.a &&& m.a = v.a ∧ f.b &&& m.b = v.b := by
  cases hp
  exact (Pattern.accepts_toWord m v f).1 h

/-- A row of the table accepts only the fields of commands of that row. -/
theorem exists_fields_of_accepts {n : Nat} {p : Pattern} {f : Fields} (hp : patterns[n]? = some p)
    (h : p.accepts f.toWord = true) : ∃ i : Instr, i.fields = f ∧ i.row = n := by
  obtain ⟨op, sel, a, b⟩ := f
  match n with
  | 0 =>
    obtain ⟨rfl, rfl, -, rfl⟩ := by
      simpa only [sel_and_fifteen, word_and_ones] using
        fields_of_accepts ⟨15, 15, 0, 0xFFFFFFFF⟩ ⟨1, 0, 0, 0⟩ hp h
    exact ⟨.rbPush a, rfl, rfl⟩
  | 1 =>
    obtain ⟨rfl, hsel, rfl, -⟩ := by
      simpa only [sel_and_fifteen, word_and_ones] using
        fields_of_accepts ⟨15, 12, 0xFFFFFFFF, 0⟩ ⟨2, 0, 0, 0⟩ hp h
    obtain ⟨buf, rfl⟩ := Buffer.exists_sel_eq (le_three_of_and_twelve hsel)
    exact ⟨.rbGet buf b, rfl, rfl⟩
  | 2 =>
    obtain ⟨rfl, rfl, rfl, rfl⟩ := by
      simpa only [sel_and_fifteen, word_and_ones] using
        fields_of_accepts ⟨15, 15, 0xFFFFFFFF, 0xFFFFFFFF⟩ ⟨3, 0, 0, 0⟩ hp h
    exact ⟨.rbInit, rfl, rfl⟩
  | 3 =>
    obtain ⟨rfl, rfl, -, rfl⟩ := by
      simpa only [sel_and_fifteen, word_and_ones] using
        fields_of_accepts ⟨15, 15, 0, 0xFFFFFFFF⟩ ⟨4, 0, 0, 0⟩ hp h
    exact ⟨.fdlProc a, rfl, rfl⟩
  | 4 =>
    obtain ⟨rfl, rfl, rfl, -⟩ := by
      simpa only [sel_and_fifteen, word_and_ones] using
        fields_of_accepts ⟨15, 15, 0xFFFFFFFF, 0⟩ ⟨5, 0, 0, 0⟩ hp h
    exact ⟨.fdlInit b, rfl, rfl⟩
  | 5 =>
    obtain ⟨rfl, hsel, -, -⟩ := by
      simpa only [sel_and_fifteen, word_and_ones] using
        fields_of_accepts ⟨15, 14, 0, 0⟩ ⟨6, 0, 0, 0⟩ hp h
    obtain rfl | rfl := sel_le_one (le_one_of_and_fourteen hsel)
    · exact ⟨.modProc false a b, rfl, rfl⟩
    · exact ⟨.modProc true a b, rfl, rfl⟩
  | 6 =>
    obtain ⟨rfl, rfl, rfl, rfl⟩ := by
      simpa only [sel_and_fifteen, word_and_ones] using
        fields_of_accepts ⟨15, 15, 0xFFFFFFFF, 0xFFFFFFFF⟩ ⟨7, 0, 0, 0⟩ hp h
    exact ⟨.modInitVibrato, rfl, rfl⟩
  | 7 =>
    obtain ⟨rfl, rfl, rfl, rfl⟩ := by
      simpa only [sel_and_fifteen, word_and_ones] using
        fields_of_accepts ⟨15, 15, 0xFFFFFFFF, 0xFFFFFFFF⟩ ⟨7, 1, 0, 0⟩ hp h
    exact ⟨.modInitChorus, rfl, rfl⟩
  | 8 =>
    obtain ⟨rfl, rfl, rfl, rfl⟩ := by
      simpa only [sel_and_fifteen, word_and_ones] using
        fields_of_accepts ⟨15, 15, 0xFFFFFFFF, 0xFFFFFFFF⟩ ⟨7, 2, 0, 0⟩ hp h
    exact ⟨.modInitFlanger, rfl, rfl⟩
  | 9 =>
    obtain ⟨rfl, -, rfl, rfl⟩ := by
      simpa only [sel_and_fifteen, word_and_ones] using
        fields_of_accepts ⟨15, 0, 0xFFFFFFFF, 0xFFFFFFFF⟩ ⟨8, 0, 0, 0⟩ hp h
    exact ⟨.csrRd (Csr.ofSel sel), by rw [Instr.fields, Csr.sel_ofSel]; rfl, rfl⟩
  | 10 =>
    obtain ⟨rfl, -, -, rfl⟩ := by
      simpa only [sel_and_fifteen, word_and_ones] using
        fields_of_accepts ⟨15, 0, 0, 0xFFFFFFFF⟩ ⟨9, 0, 0, 0⟩ hp h
    exact ⟨.csrWr (Csr.ofSel sel) a, by rw [Instr.fields, Csr.sel_ofSel]; rfl, rfl⟩
  | n + 11 => simp [patterns] at hp

/-- Every command's own row accepts its word. -/
theorem matchesRow (i : Instr) : Laws.MatchesRow.Statement i := by
  cases i with
  | rbPush v => exact Laws.MatchesRow.rbPush v
  | rbGet buf d => exact Laws.MatchesRow.rbGet buf d
  | rbInit => exact Laws.MatchesRow.rbInit
  | fdlProc x => exact Laws.MatchesRow.fdlProc x
  | fdlInit d => exact Laws.MatchesRow.fdlInit d
  | modProc l x sr => exact Laws.MatchesRow.modProc l x sr
  | modInitVibrato => exact Laws.MatchesRow.modInitVibrato
  | modInitChorus => exact Laws.MatchesRow.modInitChorus
  | modInitFlanger => exact Laws.MatchesRow.modInitFlanger
  | csrRd c => exact Laws.MatchesRow.csrRd c
  | csrWr c v => exact Laws.MatchesRow.csrWr c v

/-- A row accepts exactly the words that decode to a command of that row (R85). -/
theorem accepts_iff_decode_row {n : Nat} {p : Pattern} (hp : patterns[n]? = some p) (w : CmdWord) :
    p.accepts w = true ↔ ∃ i, decode w = .ok i ∧ i.row = n := by
  simp only [decode_eq_ok_iff_fields]
  constructor
  · intro h
    rw [← Fields.toWord_ofWord w] at h
    exact exists_fields_of_accepts hp h
  · rintro ⟨i, hi, rfl⟩
    obtain ⟨q, hq, hacc⟩ := matchesRow i
    obtain rfl : q = p := Option.some.inj (hq.symm.trans hp)
    rwa [encode, hi, Fields.toWord_ofWord] at hacc

/-- A word that decodes is accepted by some row. -/
theorem exists_accepts_of_decode {w : CmdWord} {i : Instr} (h : decode w = .ok i) :
    ∃ p ∈ patterns, p.accepts w = true := by
  obtain ⟨p, hp, hacc⟩ := matchesRow i
  exact ⟨p, List.mem_of_getElem? hp, by rwa [decode_eq_ok_iff.1 h] at hacc⟩

end Sys2Proof

namespace Sys2Proof.Machine

/-! ### The response of a command (R82, R83) -/

/-- Storing to a register leaves the ports alone. -/
theorem storeCsr_ports (s : State) (c : Csr) (v : Word) : (storeCsr s c v).responses = s.responses ∧
    (storeCsr s c v).inputs = s.inputs ∧ (storeCsr s c v).delivered = s.delivered := by
  cases c <;> exact ⟨rfl, rfl, rfl⟩

theorem answered_raise (s : State) (e : ErrCode) : Answered s (s.raise e) (responseWord e.code false 0) :=
  ⟨rfl, rfl, rfl, rfl⟩

/-- Every command forms one response: an error code alone, or data with code 0, where only MOD.PROC with the log flag
can set the log bit. -/
theorem perform_answered (s : State) (i : Instr) :
    (∃ e : ErrCode, Answered s (perform s i) (responseWord e.code false 0)) ∨
    ∃ l d, Answered s (perform s i) (responseWord 0 l d) ∧ (l = true → ∃ x sr, i = .modProc true x sr) := by
  cases i with
  | fdlInit d =>
    rcases perform_fdlInit s d with ⟨e, -, h⟩ | ⟨-, h⟩ <;> rw [h]
    · exact .inl ⟨e, answered_raise s e⟩
    · exact .inr ⟨false, 0, ⟨rfl, rfl, rfl, rfl⟩, nofun⟩
  | modProc l x b =>
    rcases perform_modProc s l x b with ⟨-, h⟩ | ⟨-, h⟩ <;> rw [h]
    · exact .inl ⟨.srate, answered_raise s .srate⟩
    · refine .inr ⟨s.mod.records l, _, ⟨rfl, rfl, rfl, rfl⟩, fun hrec => ⟨x, b, ?_⟩⟩
      have hl : s.mod.firstDone = false ∧ l = true := by simpa [ModUnit.records] using hrec
      rw [hl.2]
  | csrWr c v =>
    rcases perform_csrWr s c v with ⟨e, -, h⟩ | ⟨-, h⟩ <;> rw [h]
    · exact .inl ⟨e, answered_raise s e⟩
    · obtain ⟨hrsp, hin, hdel⟩ := storeCsr_ports s c v
      exact .inr ⟨false, 0, ⟨by rw [State.respond_responses, hrsp], storeCsr_build s c v, hin, hdel⟩, nofun⟩
  | _ => exact .inr ⟨false, _, ⟨rfl, rfl, rfl, rfl⟩, nofun⟩

theorem ErrCode.code_le (e : ErrCode) : e.code.toNat ≤ 6 := by cases e <;> decide

theorem flagBit_eq_one (l : Bool) : flagBit l = 1 ↔ l = true := by cases l <;> decide

/-! ### The obligations -/

/-- Settles O1: `decodeFields` gives back a command from its fields, which pass every check. -/
theorem decodeEncodeRoundTrip : Obligations.DecodeEncodeRoundTrip :=
  fun i => ⟨fields_wellFormed i, decode_eq_ok_iff.2 rfl⟩

/-- Settles O2: decode looks at every bit it does not hand on as an operand. -/
theorem encodeDecodeRoundTrip : Obligations.EncodeDecodeRoundTrip :=
  fun _ _ h => decode_eq_ok_iff.1 h

/-- Settles O3: a row accepts the words of its own commands, and a word decodes to one command at most. -/
theorem wordSpellsCommandIffItMatchesRow : Obligations.WordSpellsCommandIffItMatchesRow := by
  refine ⟨fun w n p hp => accepts_iff_decode_row hp w, fun w m n p q hp hq hpw hqw => ?_, fun w => ⟨fun h => ?_, ?_⟩⟩
  · obtain ⟨i, hi, rfl⟩ := (accepts_iff_decode_row hp w).1 hpw
    obtain ⟨j, hj, rfl⟩ := (accepts_iff_decode_row hq w).1 hqw
    rw [Except.ok.inj (hi.symm.trans hj)]
  · match hd : decode w with
    | .error why => exact ⟨why, rfl⟩
    | .ok i =>
      obtain ⟨p, hp, hacc⟩ := exists_accepts_of_decode hd
      rw [h p hp] at hacc
      exact absurd hacc Bool.false_ne_true
  · rintro ⟨why, hwhy⟩ p hp
    obtain ⟨n, hn⟩ := List.mem_iff_getElem?.1 hp
    rw [← Bool.not_eq_true, accepts_iff_decode_row hn w, hwhy]
    rintro ⟨i, hi, -⟩
    cases hi

/-- Settles O4: decode refuses exactly the fields that fail a check of R88. -/
theorem illegalWordsAreThoseWithBadField : Obligations.IllegalWordsAreThoseWithBadField := by
  intro w op sel a b hop hsel ha hb
  rw [exists_decode_eq_error_iff, exists_fields_eq_iff, Fields.wellFormed_iff, Fields.sel_le_selMax_iff]
  simp only [Fields.ofWord, ← hop, ← hsel, ← ha, ← hb]
  by_cases hres : op = 0 ∨ 10 ≤ op
  · simp only [hres, not_true_eq_false, false_and, not_false_eq_true, true_or]
  · have hselBad : ¬(sel = 0 ∨ (op = 2 ∧ sel ≤ 3) ∨ (op = 6 ∧ sel ≤ 1) ∨ (op = 7 ∧ sel ≤ 2) ∨ op = 8 ∨ op = 9) ↔
        ((op = 1 ∨ op = 3 ∨ op = 4 ∨ op = 5) ∧ sel ≠ 0) ∨ (op = 2 ∧ 3 < sel) ∨ (op = 6 ∧ 1 < sel) ∨
          (op = 7 ∧ 2 < sel) := by omega
    have haUsed : ¬(op = 1 ∨ op = 4 ∨ op = 6 ∨ op = 9) ↔ op = 2 ∨ op = 3 ∨ op = 5 ∨ op = 7 ∨ op = 8 := by omega
    have hbUsed : ¬(op = 2 ∨ op = 5 ∨ op = 6) ↔ op = 1 ∨ op = 3 ∨ op = 4 ∨ op = 7 ∨ op = 8 ∨ op = 9 := by omega
    rw [not_and_or, not_and_or, not_and_or, not_not, hselBad, not_or (p := a = 0), haUsed, not_or (p := b = 0), hbUsed,
      and_comm (a := ¬a = 0), and_comm (a := ¬b = 0)]
    simp only [or_assoc, ne_eq]

/-- Settles O11, by the two ways a command ends: an error code alone, or data with code 0. -/
theorem oneWellFormedResponsePerCommand : Obligations.OneWellFormedResponsePerCommand := by
  intro i s
  rcases perform_answered s i with ⟨e, hans⟩ | ⟨l, d, hans, hlog⟩
  · obtain ⟨herr, hpad, hlog, hdata⟩ := responseWord_fields e.code false 0
    refine ⟨_, _, exec_eq_perform i s, hans, hpad, ?_, fun _ => ⟨hdata, hlog⟩, ?_⟩
    · rw [herr]; exact e.code_le
    · rw [hlog]; nofun
  · obtain ⟨herr, hpad, hbit, -⟩ := responseWord_fields 0 l d
    refine ⟨_, _, exec_eq_perform i s, hans, hpad, ?_, fun h => absurd herr h, ?_⟩
    · rw [herr]; decide
    · rw [hbit, flagBit_eq_one]; exact hlog

/-- Settles O5, word by word. -/
theorem specWordsDecode : Obligations.SpecWordsDecode :=
  ⟨rfl, rfl, rfl, rfl, rfl, rfl, rfl, rfl, rfl, rfl, rfl⟩

end Sys2Proof.Machine
end

section
/-!
PROOFS. The arithmetic (R115 to R127): the operations by the class of their operands, exact sums, the floor and the
fraction, the clamp; and the delays and pushes of the buffers that carry the values (R110, R140, R161).
-/

namespace Sys2Proof.Machine

/-! ### Classes (R115) -/

theorem units_ONE : units ONE = 2 ^ 149 := by decide

theorem units_two_pow_24 : units 0x4B800000 = 2 ^ 24 * 2 ^ 149 := by decide

theorem isNaN_of_isInf {x : Word} (h : isInf x = true) : isNaN x = false := by
  rw [isInf_iff] at h
  rw [Bool.eq_false_iff, ne_eq, isNaN_iff]
  omega

theorem isZero_of_isInf {x : Word} (h : isInf x = true) : isZero x = false := by
  rw [isInf_iff] at h
  rw [Bool.eq_false_iff, ne_eq, isZero_iff]
  omega

theorem isFinite_of_isInf {x : Word} (h : isInf x = true) : isFinite x = false := by
  rw [isInf_iff] at h
  rw [Bool.eq_false_iff, ne_eq, isFinite_iff]
  omega

theorem isFinite_of_isNaN {x : Word} (h : isNaN x = true) : isFinite x = false := by
  rw [isNaN_iff] at h
  rw [Bool.eq_false_iff, ne_eq, isFinite_iff]
  omega

theorem isFinite_of_isZero {x : Word} (h : isZero x = true) : isFinite x = true := by
  rw [isZero_iff] at h
  rw [isFinite_iff]
  omega

/-- A zero is one of the two. -/
theorem eq_of_isZero {x : Word} (h : isZero x = true) : x = ZERO ∨ x = NEG_ZERO := by
  rw [isZero_iff] at h
  rw [← pack_self x, h]
  cases signBit x
  · exact .inl rfl
  · exact .inr rfl

/-- An infinity is its sign. -/
theorem infinity_signBit {x : Word} (h : isInf x = true) : infinity (signBit x) = x := by
  rw [isInf_iff] at h
  rw [infinity, ← h, pack_self]

theorem isInf_infinity (s : Bool) : isInf (infinity s) = true := by cases s <;> decide

theorem isNaN_NAN : isNaN NAN = true := by decide

/-! ### Products and quotients by class (R117, R118) -/

theorem xorSign_comm (x y : Word) : xorSign x y = xorSign y x := Bool.xor_comm _ _

theorem fmul_comm (x y : Word) : fmul x y = fmul y x := by
  unfold fmul
  rw [xorSign_comm, Nat.mul_comm, Bool.or_comm, Bool.or_comm (isInf x), Bool.or_comm (isZero x)]

theorem fmul_inf {x y : Word} (hx : isInf x = true) (hy : isNaN y = false) (h0 : isZero y = false) :
    fmul x y = infinity (xorSign x y) := by
  simp [fmul, hx, hy, h0, isNaN_of_isInf hx, isZero_of_isInf hx]

theorem fmul_zero_inf {x y : Word} (hx : isZero x = true) (hy : isInf y = true) : fmul x y = NAN := by
  simp [fmul, hx, hy, isNaN_of_isInf hy, isNaN_of_finite (isFinite_of_isZero hx)]

theorem fdiv_inf_inf {x y : Word} (hx : isInf x = true) (hy : isInf y = true) : fdiv x y = NAN := by
  simp [fdiv, hx, hy, isNaN_of_isInf hx, isNaN_of_isInf hy]

theorem fdiv_inf_finite {x y : Word} (hx : isInf x = true) (hy : isFinite y = true) :
    fdiv x y = infinity (xorSign x y) := by
  simp [fdiv, hx, isNaN_of_isInf hx, isNaN_of_finite hy, isInf_of_finite hy]

theorem fdiv_finite_inf {x y : Word} (hx : isFinite x = true) (hy : isInf y = true) :
    fdiv x y = pack (xorSign x y) 0 := by
  simp [fdiv, hy, isNaN_of_isInf hy, isNaN_of_finite hx, isInf_of_finite hx]

theorem fdiv_zero_zero {x y : Word} (hx : isZero x = true) (hy : isZero y = true) : fdiv x y = NAN := by
  have hxf := isFinite_of_isZero hx
  have hyf := isFinite_of_isZero hy
  simp [fdiv, hx, hy, isNaN_of_finite hxf, isNaN_of_finite hyf, isInf_of_finite hxf, isInf_of_finite hyf]

theorem fdiv_by_zero {x y : Word} (hx : isFinite x = true) (hx0 : isZero x = false) (hy : isZero y = true) :
    fdiv x y = infinity (xorSign x y) := by
  have hyf := isFinite_of_isZero hy
  simp [fdiv, hx0, hy, isNaN_of_finite hx, isNaN_of_finite hyf, isInf_of_finite hx, isInf_of_finite hyf]

/-- A product is the canonical NaN, or a magnitude with the sign of R117. -/
theorem fmul_eq_nan_or_pack (x y : Word) :
    fmul x y = NAN ∨ ∃ m, m ≤ 0x7F800000 ∧ fmul x y = pack (xorSign x y) m := by
  unfold fmul
  split_ifs
  · exact .inl rfl
  · exact .inl rfl
  · exact .inr ⟨_, le_rfl, rfl⟩
  · exact .inr ⟨_, roundMag_le _ _, rfl⟩

/-- A quotient is the canonical NaN, or a magnitude with the sign of R117. -/
theorem fdiv_eq_nan_or_pack (x y : Word) :
    fdiv x y = NAN ∨ ∃ m, m ≤ 0x7F800000 ∧ fdiv x y = pack (xorSign x y) m := by
  unfold fdiv
  split_ifs
  · exact .inl rfl
  · exact .inl rfl
  · exact .inr ⟨_, le_rfl, rfl⟩
  · exact .inr ⟨0, by decide, rfl⟩
  · exact .inl rfl
  · exact .inr ⟨_, le_rfl, rfl⟩
  · exact .inr ⟨_, roundMag_le _ _, rfl⟩

/-- What is the canonical NaN or a packed magnitude is no other NaN. -/
theorem eq_nan_of_eq_nan_or_pack {r : Word} {s : Bool} (h : r = NAN ∨ ∃ m, m ≤ 0x7F800000 ∧ r = pack s m)
    (hr : isNaN r = true) : r = NAN := by
  obtain rfl | ⟨m, hm, rfl⟩ := h
  · rfl
  · rw [isNaN_pack s hm] at hr
    cases hr

/-- What is the canonical NaN or a packed magnitude, and is not a NaN, has that sign. -/
theorem signBit_of_eq_nan_or_pack {r : Word} {s : Bool} (h : r = NAN ∨ ∃ m, m ≤ 0x7F800000 ∧ r = pack s m)
    (hr : isNaN r = false) : signBit r = s := by
  obtain rfl | ⟨m, hm, rfl⟩ := h
  · rw [isNaN_NAN] at hr
    cases hr
  · exact signBit_pack s (by omega)

/-! ### Sums by class (R117, R118) -/

/-- Opposite infinities have no sum. -/
theorem fadd_inf_opposite {x y : Word} (hx : isInf x = true) (hy : isInf y = true) (hs : signBit x ≠ signBit y) :
    fadd x y = NAN := by
  simp [fadd, hx, hy, hs, isNaN_of_isInf hx, isNaN_of_isInf hy]

/-- A difference of equal infinities has no value. -/
theorem fsub_inf {x y : Word} (hx : isInf x = true) (hy : isInf y = true) (hs : signBit x = signBit y) :
    fsub x y = NAN := by
  refine fadd_inf_opposite hx (by rwa [isInf_fneg]) ?_
  rw [signBit_fneg, hs]
  simp

/-- A sum is the canonical NaN, or a magnitude with a sign. -/
theorem fadd_eq_nan_or_pack (x y : Word) :
    fadd x y = NAN ∨ ∃ s m, m ≤ 0x7F800000 ∧ fadd x y = pack s m := by
  have hinf : ∀ {z : Word}, isInf z = true → ∃ s m, m ≤ 0x7F800000 ∧ z = pack s m := fun {z} h =>
    ⟨signBit z, magField z, ((isInf_iff z).1 h).le, (pack_self z).symm⟩
  simp only [fadd]
  split_ifs with _ hx _ hy
  · exact .inl rfl
  · exact .inl rfl
  · exact .inr (hinf hx)
  · exact .inr (hinf hy)
  · exact .inr ⟨true, 0, by decide, rfl⟩
  · exact .inr ⟨false, 0, by decide, rfl⟩
  · exact .inr ⟨_, _, roundMag_le _ _, rfl⟩

theorem fadd_eq_nan {x y : Word} (h : isNaN (fadd x y) = true) : fadd x y = NAN := by
  obtain hnan | ⟨s, m, hm, hpack⟩ := fadd_eq_nan_or_pack x y
  · exact hnan
  · exact eq_nan_of_eq_nan_or_pack (.inr ⟨m, hm, hpack⟩) h

theorem fadd_comm (x y : Word) : fadd x y = fadd y x := by
  by_cases hn : isNaN x = true ∨ isNaN y = true
  · rw [fadd_nan hn, fadd_nan hn.symm]
  · simp only [not_or, Bool.not_eq_true] at hn
    obtain ⟨hxn, hyn⟩ := hn
    cases hxi : isInf x <;> cases hyi : isInf y
    · have hx := isFinite_of_not_nan_of_not_inf hxn hxi
      have hy := isFinite_of_not_nan_of_not_inf hyn hyi
      rw [fadd_finite hx hy, fadd_finite hy hx, Int.add_comm, Bool.and_comm]
    · have hx := isFinite_of_not_nan_of_not_inf hxn hxi
      rw [fadd_inf_right hx hyi hyn, fadd_inf_left hyi hxn (by simp [hxi])]
    · have hy := isFinite_of_not_nan_of_not_inf hyn hyi
      rw [fadd_inf_right hy hxi hxn, fadd_inf_left hxi hyn (by simp [hyi])]
    · by_cases hs : signBit x = signBit y
      · rw [← infinity_signBit hxi, ← infinity_signBit hyi, hs]
      · rw [fadd_inf_opposite hxi hyi hs, fadd_inf_opposite hyi hxi (Ne.symm hs)]

/-! ### Exact sums (R117, R127) -/

/-- Adding a zero to a value that is not one changes nothing. -/
theorem fadd_zero_right {x z : Word} (hx : isNaN x = false) (hx0 : isZero x = false) (hz : isZero z = true) :
    fadd x z = x := by
  have hzf := isFinite_of_isZero hz
  cases hxi : isInf x
  · have hxf := isFinite_of_not_nan_of_not_inf hx hxi
    have h0 : ¬ units x = 0 := by rw [units_eq_zero, hx0]; decide
    exact fadd_exact hxf hzf hxf (by rw [(units_eq_zero z).2 hz, Int.add_zero]) h0
  · exact fadd_inf_left hxi (isNaN_of_finite hzf) (by simp [isInf_of_finite hzf])

/-- A sum of opposite finite values is `+0` unless both sign bits are 1 (R117). -/
theorem fadd_cancel {x y : Word} (hx : isFinite x = true) (hy : isFinite y = true) (h : units x + units y = 0) :
    fadd x y = if signBit x && signBit y then NEG_ZERO else ZERO := by
  rw [fadd_finite hx hy, if_pos h]

theorem fsub_self {x : Word} (hx : isFinite x = true) : fsub x x = ZERO := by
  rw [fsub, fadd_cancel hx (by rwa [isFinite_fneg]) (by rw [units_fneg]; omega), signBit_fneg]
  simp

theorem fmul_one_left (x : Word) : fmul ONE x = if isNaN x then NAN else x := by
  have hsign : xorSign ONE x = signBit x := by
    have : signBit ONE = false := by decide
    simp [xorSign, this]
  rcases class_cases x with h | h | h
  · have hunits : magUnits ONE = 2 ^ 149 := by decide
    rw [fmul_finite (by decide) h, hsign, hunits, Nat.mul_comm, pack_exact h (Nat.two_pow_pos _), isNaN_of_finite h]
    rfl
  · rw [fmul_comm, fmul_inf h (by decide) (by decide), xorSign_comm, hsign, infinity_signBit h, isNaN_of_isInf h]
    rfl
  · rw [fmul_nan (.inr h), h]
    rfl

theorem fmul_zero_left (x : Word) :
    fmul ZERO x = if isFinite x then (if signBit x then NEG_ZERO else ZERO) else NAN := by
  rcases class_cases x with h | h | h
  · have hunits : magUnits ZERO = 0 := by decide
    have hsign : signBit ZERO = false := by decide
    rw [fmul_finite (by decide) h, hunits, Nat.zero_mul, roundMag_zero, h, xorSign, hsign]
    cases signBit x <;> decide
  · rw [fmul_zero_inf (by decide) h, isFinite_of_isInf h]
    rfl
  · rw [fmul_nan (.inr h), isFinite_of_isNaN h]
    rfl

/-! ### Rounding of the four operations (R117, R119) -/

theorem roundsTo_fadd {x y : Word} (hx : isFinite x = true) (hy : isFinite y = true) :
    RoundsTo (units x + units y) 1 (fadd x y) := by
  rw [fadd_finite hx hy]
  split
  · next h =>
    rw [h]
    split
    · exact roundsTo_pack true 0 Nat.one_pos
    · exact roundsTo_pack false 0 Nat.one_pos
  · have hsign : (if decide (units x + units y < 0) then -((units x + units y).natAbs : Int)
        else (units x + units y).natAbs) = units x + units y := by
      simp only [decide_eq_true_eq]
      split <;> omega
    have hround := roundsTo_pack (decide (units x + units y < 0)) (units x + units y).natAbs Nat.one_pos
    rwa [hsign] at hround

theorem units_mul (x y : Word) : units x * units y =
    if xorSign x y then -((magUnits x * magUnits y : Nat) : Int) else (magUnits x * magUnits y : Nat) := by
  unfold units xorSign
  cases signBit x <;> cases signBit y <;> simp

/-- The numerator of a quotient counted in units: the sign of the divisor goes to it. -/
theorem units_mul_sign (x y : Word) : units x * 2 ^ 149 * (if signBit y then -1 else 1) =
    if xorSign x y then -((magUnits x * 2 ^ 149 : Nat) : Int) else (magUnits x * 2 ^ 149 : Nat) := by
  unfold units xorSign
  cases signBit x <;> cases signBit y <;> simp

theorem roundsTo_fmul {x y : Word} (hx : isFinite x = true) (hy : isFinite y = true) :
    RoundsTo (units x * units y) (2 ^ 149) (fmul x y) := by
  rw [fmul_finite hx hy, units_mul]
  exact roundsTo_pack _ _ (Nat.two_pow_pos _)

theorem roundsTo_fdiv {x y : Word} (hx : isFinite x = true) (hy : isFinite y = true) (h0 : isZero y = false) :
    RoundsTo (units x * 2 ^ 149 * (if signBit y then -1 else 1)) (magUnits y) (fdiv x y) := by
  have hpos : 0 < magUnits y := by
    rw [Nat.pos_iff_ne_zero, ne_eq, magUnits_eq_zero, h0]
    decide
  rw [fdiv_finite hx hy h0, units_mul_sign]
  exact roundsTo_pack _ _ hpos

/-! ### Integers (R124) -/

theorem roundsTo_u2f (u : Word) : RoundsTo (u.toNat * 2 ^ 149) 1 (u2f u) := by
  have hround := roundsTo_pack false (u.toNat * 2 ^ 149) Nat.one_pos
  rwa [if_neg (by decide), Nat.cast_mul] at hround

/-- An integer that binary32 holds is converted to that value. -/
theorem u2f_exact {u z : Word} (hz : isFinite z = true) (hs : signBit z = false)
    (h : units z = (u.toNat * 2 ^ 149 : Nat)) : u2f u = z := by
  have hmag : magUnits z = u.toNat * 2 ^ 149 := by
    rw [units, hs, if_neg (by decide)] at h
    exact Int.ofNat.inj h
  have hpack := pack_exact hz Nat.one_pos
  rwa [hs, hmag, Nat.mul_one] at hpack

/-- An integer of at most 24 significant bits is exact. -/
theorem u2f_of_significand {u : Word} {m j : Nat} (hm : m < 2 ^ 24) (h : u.toNat = m * 2 ^ j) :
    isFinite (u2f u) = true ∧ units (u2f u) = (u.toNat * 2 ^ 149 : Nat) := by
  obtain ⟨j, hj, h⟩ : ∃ j, j ≤ 31 ∧ u.toNat = m * 2 ^ j := by
    rcases Nat.eq_zero_or_pos m with rfl | hpos
    · exact ⟨0, by decide, by simpa using h⟩
    · refine ⟨j, Nat.le_of_lt_succ ((Nat.pow_lt_pow_iff_right (a := 2) (by decide)).1 ?_), h⟩
      calc 2 ^ j ≤ m * 2 ^ j := Nat.le_mul_of_pos_left _ hpos
        _ < 2 ^ 32 := h ▸ u.isLt
  obtain ⟨z, hz, hs, hu⟩ := exists_finite (m := m) (j := j + 149) hm (by omega)
  rw [Nat.pow_add, ← Nat.mul_assoc, ← h] at hu
  rw [u2f_exact hz hs hu]
  exact ⟨hz, hu⟩

/-- An integer up to 2^24 is exact. -/
theorem u2f_of_le {u : Word} (h : u.toNat ≤ 2 ^ 24) :
    isFinite (u2f u) = true ∧ units (u2f u) = (u.toNat * 2 ^ 149 : Nat) := by
  rcases Nat.lt_or_eq_of_le h with h | h
  · exact u2f_of_significand (j := 0) h (by omega)
  · exact u2f_of_significand (m := 1) (j := 24) (by decide) (by omega)

/-! ### The floor and the fraction (R125, R190) -/

/-- A finite magnitude is a 24-bit significand times a power of two (R115). -/
theorem exists_significand {x : Word} (hx : isFinite x = true) :
    ∃ s k, s < 2 ^ 24 ∧ k ≤ 253 ∧ magUnits x = s * 2 ^ k := by
  have hfrac : fracField x < 2 ^ 23 := (x.extractLsb' 0 23).isLt
  have hexp : expField x < 2 ^ 8 := (x.extractLsb' 23 8).isLt
  have hne : expField x ≠ 255 := by simpa [isFinite] using hx
  unfold magUnits
  split
  · exact ⟨fracField x, 0, by omega, by decide, by omega⟩
  · exact ⟨2 ^ 23 + fracField x, expField x - 1, by omega, by omega, rfl⟩

/-- The fraction of a finite value is a finite value: its significand is a part of the value's. -/
theorem exists_finite_mod {x : Word} (hx : isFinite x = true) :
    ∃ z : Word, isFinite z = true ∧ units z = (magUnits x % 2 ^ 149 : Nat) := by
  obtain ⟨s, k, hs, hk, hmag⟩ := exists_significand hx
  rw [hmag]
  rcases Nat.le_total k 149 with h | h
  · obtain ⟨z, hz, -, hu⟩ := exists_finite (m := s % 2 ^ (149 - k)) ((Nat.mod_le _ _).trans_lt hs) hk
    refine ⟨z, hz, ?_⟩
    rw [hu, ← Nat.mul_mod_mul_right, ← Nat.pow_add, Nat.sub_add_cancel h]
  · refine ⟨ZERO, by decide, ?_⟩
    rw [Nat.mod_eq_zero_of_dvd ((Nat.pow_dvd_pow 2 h).mul_left s)]
    decide

/-- The domain of `floor_u`: a value from 1 to 2^24 (R125). -/
structure FloorDomain (x : Word) : Prop where
  finite : isFinite x = true
  one_le : 2 ^ 149 ≤ units x
  le_top : units x ≤ 2 ^ 24 * 2 ^ 149

/-- The domain in the terms of the comparisons. -/
theorem floorDomain_of_compare {x : Word} (h1 : fge x ONE = true) (h2 : fle x 0x4B800000 = true) : FloorDomain x := by
  obtain ⟨-, -, hone⟩ := (fge_iff x ONE).1 h1
  obtain ⟨-, -, htop⟩ := (fle_iff x 0x4B800000).1 h2
  have hmag : unitsOfMag 0x4B800000 = 2 ^ 24 * 2 ^ 149 := by decide
  rw [units_ONE] at hone
  rw [units_two_pow_24] at htop
  refine ⟨?_, hone, htop⟩
  have hle : unitsOfMag (magField x) ≤ unitsOfMag 0x4B800000 := by
    rw [← natAbs_units, hmag]
    omega
  have := unitsOfMag_le.1 hle
  rw [isFinite_iff]
  omega

namespace FloorDomain
variable {x : Word}

theorem signBit_eq_false (h : FloorDomain x) : signBit x = false :=
  signBit_of_units_pos (by have := h.one_le; omega)

theorem units_eq_magUnits (h : FloorDomain x) : units x = magUnits x := by
  rw [units, h.signBit_eq_false]
  rfl

/-- On its domain `floor_u` is the quotient by 1 in units. -/
theorem toNat_floorU (h : FloorDomain x) : (floorU x).toNat = magUnits x / 2 ^ 149 := by
  have := h.le_top
  rw [h.units_eq_magUnits] at this
  rw [floorU, BitVec.toNat_ofNat, Nat.mod_eq_of_lt (by omega)]

theorem floorU_spec (h : FloorDomain x) :
    (floorU x).toNat * 2 ^ 149 ≤ units x ∧ units x < ((floorU x).toNat + 1) * 2 ^ 149 := by
  rw [h.toNat_floorU, h.units_eq_magUnits]
  omega

theorem floorU_le (h : FloorDomain x) : (floorU x).toNat ≤ 2 ^ 24 := by
  have := h.floorU_spec
  have := h.le_top
  omega

/-- The difference from the floor is exact. -/
theorem fracPart_spec (h : FloorDomain x) :
    isFinite (fracPart x) = true ∧ units (fracPart x) = units x - (floorU x).toNat * 2 ^ 149 ∧
      (fracPart x = ZERO ↔ units x = (floorU x).toNat * 2 ^ 149) := by
  obtain ⟨hf, hu⟩ := u2f_of_le h.floorU_le
  obtain ⟨z, hz, hzu⟩ := exists_finite_mod h.finite
  have hneg : isFinite (fneg (u2f (floorU x))) = true := by rwa [isFinite_fneg]
  have hdiff : units x + units (fneg (u2f (floorU x))) = units x - (floorU x).toNat * 2 ^ 149 := by
    rw [units_fneg, hu]
    push_cast
    ring
  have hzdiff : units z = units x - (floorU x).toNat * 2 ^ 149 := by
    rw [hzu, h.toNat_floorU, h.units_eq_magUnits]
    omega
  have hunits0 : units ZERO = 0 := by decide
  by_cases h0 : units z = 0
  · have hzero : fracPart x = ZERO := by
      rw [fracPart, fsub, fadd_cancel h.finite hneg (by rw [hdiff, ← hzdiff, h0]), h.signBit_eq_false]
      rfl
    rw [hzero, hunits0]
    exact ⟨by decide, by omega, fun _ => by omega, fun _ => rfl⟩
  · have hexact : fracPart x = z := fadd_exact h.finite hneg hz (hdiff.trans hzdiff.symm) h0
    rw [hexact]
    refine ⟨hz, hzdiff, fun hzero => ?_, fun heq => ?_⟩
    · rw [hzero, hunits0] at h0
      exact absurd rfl h0
    · omega

/-- The fraction lies in `[0, 1)` and is `+0` iff the value is an integer (R190). -/
theorem fracPart_range (h : FloorDomain x) :
    0 ≤ units (fracPart x) ∧ units (fracPart x) < 2 ^ 149 ∧
      (fracPart x = ZERO ↔ ∃ n : Int, units x = n * 2 ^ 149) := by
  obtain ⟨-, hunits, hzero⟩ := h.fracPart_spec
  obtain ⟨hlo, hhi⟩ := h.floorU_spec
  refine ⟨by omega, by omega, hzero.trans ⟨fun h => ⟨_, h⟩, ?_⟩⟩
  rintro ⟨n, hn⟩
  omega

end FloorDomain

/-! ### The selections and the clamp (R123, R189) -/

theorem fminSel_eq_left {x y : Word} (h : flt y x = false) : fminSel x y = x := by simp [fminSel, h]

theorem fmaxSel_eq_left {x y : Word} (h : flt x y = false) : fmaxSel x y = x := by simp [fmaxSel, h]

theorem flt_eq_false_iff {x y : Word} (hx : isNaN x = false) (hy : isNaN y = false) :
    flt x y = false ↔ units y ≤ units x := by
  simp [← Bool.not_eq_true, flt_iff, hx, hy]

/-- `fmin_sel` of two values that are not NaNs is the lesser. -/
theorem fminSel_spec {x y : Word} (hx : isNaN x = false) (hy : isNaN y = false) :
    isNaN (fminSel x y) = false ∧ units (fminSel x y) = min (units x) (units y) := by
  cases h : flt y x
  · rw [fminSel_eq_left h]
    exact ⟨hx, (min_eq_left ((flt_eq_false_iff hy hx).1 h)).symm⟩
  · rw [fminSel, if_pos h]
    exact ⟨hy, (min_eq_right ((flt_iff y x).1 h).2.2.le).symm⟩

/-- `fmax_sel` of two values that are not NaNs is the greater. -/
theorem fmaxSel_spec {x y : Word} (hx : isNaN x = false) (hy : isNaN y = false) :
    isNaN (fmaxSel x y) = false ∧ units (fmaxSel x y) = max (units x) (units y) := by
  cases h : flt x y
  · rw [fmaxSel_eq_left h]
    exact ⟨hx, (max_eq_left ((flt_eq_false_iff hx hy).1 h)).symm⟩
  · rw [fmaxSel, if_pos h]
    exact ⟨hy, (max_eq_right ((flt_iff x y).1 h).2.2.le).symm⟩

theorem flt_nan {x y : Word} (h : isNaN x = true ∨ isNaN y = true) : flt x y = false := by
  rcases h with h | h <;> simp [flt, h]

theorem fle_nan {x y : Word} (h : isNaN x = true ∨ isNaN y = true) : fle x y = false := by
  rcases h with h | h <;> simp [fle, h]

/-- A NaN delay clamps to 1: both comparisons are false on it (R123). -/
theorem clampDelay_nan (k : Nat) {d : Word} (h : isNaN d = true) : clampDelay k d = ONE := by
  rw [clampDelay, fminSel_eq_left (flt_nan (.inr h)), fmaxSel_eq_left (flt_nan (.inr h))]

theorem maxDelay_spec {k : Nat} (hk : k ≤ 24) :
    isFinite (maxDelay k) = true ∧ units (maxDelay k) = (2 ^ k - 2 : Nat) * 2 ^ 149 := by
  have hle : 2 ^ k ≤ 2 ^ 24 := Nat.pow_le_pow_right (by decide) hk
  have hnat : (BitVec.ofNat 32 (2 ^ k - 2)).toNat = 2 ^ k - 2 := by
    rw [BitVec.toNat_ofNat, Nat.mod_eq_of_lt (by omega)]
  obtain ⟨hf, hu⟩ := u2f_of_le (u := BitVec.ofNat 32 (2 ^ k - 2)) (by omega)
  rw [hnat] at hu
  exact ⟨hf, by rw [maxDelay, hu]; push_cast; rfl⟩

/-- The clamped delay lies from 1 to `N_MOD - 2`, whatever the delay. -/
theorem clampDelay_spec {k : Nat} (hk2 : 2 ≤ k) (hk : k ≤ 24) (d : Word) :
    isNaN (clampDelay k d) = false ∧ 2 ^ 149 ≤ units (clampDelay k d) ∧
      units (clampDelay k d) ≤ (2 ^ k - 2 : Nat) * 2 ^ 149 := by
  obtain ⟨hf, htop⟩ := maxDelay_spec hk
  have hone := units_ONE
  have h4 : 2 ^ 2 ≤ 2 ^ k := Nat.pow_le_pow_right (by decide) hk2
  cases hd : isNaN d
  · obtain ⟨hmin, hminu⟩ := fminSel_spec hd (isNaN_of_finite hf)
    obtain ⟨hmax, hmaxu⟩ := fmaxSel_spec (x := ONE) (by decide) hmin
    rw [clampDelay, hmaxu]
    exact ⟨hmax, by omega, by omega⟩
  · rw [clampDelay_nan k hd]
    exact ⟨by decide, hone.ge, by omega⟩

theorem floorDomain_clampDelay {k : Nat} (hk2 : 2 ≤ k) (hk : k ≤ 24) (d : Word) : FloorDomain (clampDelay k d) := by
  obtain ⟨hnan, hlo, hhi⟩ := clampDelay_spec hk2 hk d
  have hle : 2 ^ k ≤ 2 ^ 24 := Nat.pow_le_pow_right (by decide) hk
  have hone := units_ONE
  refine floorDomain_of_compare ((fge_iff _ _).2 ⟨hnan, by decide, by omega⟩) ((fle_iff _ _).2 ⟨hnan, by decide, ?_⟩)
  rw [units_two_pow_24]
  omega

/-! ### The comparisons, by row (R121) -/

/-- The four comparisons of a value with a greater one, and of the greater one with it. -/
theorem comparisons_of_orderKey_lt {x y : Word} (hx : isNaN x = false) (hy : isNaN y = false)
    (h : orderKey x < orderKey y) :
    (flt x y, fle x y, fgt x y, fge x y) = (true, true, false, false) ∧
    (flt y x, fle y x, fgt y x, fge y x) = (false, false, true, true) := by
  have hle := h.le
  have hnlt := not_lt.2 hle
  have hnle := not_le.2 h
  simp [fgt, fge, flt, fle, hx, hy, h, hle, hnlt, hnle]

/-- Every finite value lies between the infinities. -/
theorem orderKey_bounds {x : Word} (hx : isFinite x = true) :
    orderKey 0xFF800000 < orderKey x ∧ orderKey x < orderKey 0x7F800000 := by
  have hneg : orderKey 0xFF800000 = -0x7F800000 := by decide
  have hpos : orderKey 0x7F800000 = 0x7F800000 := by decide
  rw [isFinite_iff] at hx
  rw [hneg, hpos, orderKey]
  split <;> omega

theorem comparisons_nan {x y : Word} (h : isNaN x = true ∨ isNaN y = true) :
    flt x y = false ∧ fle x y = false ∧ fgt x y = false ∧ fge x y = false :=
  ⟨flt_nan h, fle_nan h, flt_nan h.symm, fle_nan h.symm⟩

/-! ### Delays modulo the capacity (R110, R141) -/

/-- A read depends on its delay modulo the capacity only. -/
theorem RingBuf.get_congr (b : RingBuf) {d e : Word} {k : Nat} (hk : k ≤ 31) (h : d.toNat ≡ e.toNat [MOD 2 ^ k]) :
    b.get k d = b.get k e := by
  rw [RingBuf.get, RingBuf.get, b.toNat_slotOf d hk, b.toNat_slotOf e hk, h]

/-- A number read as a delay is itself modulo the capacity. -/
theorem toNat_ofNat_modEq (n : Nat) {k : Nat} (hk : k ≤ 31) : (BitVec.ofNat 32 n).toNat ≡ n [MOD 2 ^ k] := by
  rw [BitVec.toNat_ofNat]
  exact (Nat.mod_modEq _ _).of_dvd (Nat.pow_dvd_pow 2 (by omega))

theorem idxReduce_of_lt {d : Word} {k : Nat} (hk : k ≤ 31) (h : d.toNat < 2 ^ k) : idxReduce k d = d :=
  BitVec.eq_of_toNat_eq (by rw [toNat_idxReduce d hk, Nat.mod_eq_of_lt h])

/-- What a push writes and what it leaves alone (R140). -/
theorem RingBuf.push_spec (b : RingBuf) (v : Word) {k : Nat} (hk : k ≤ 31) :
    (b.push k v).mem.read b.widx.toNat = v ∧
    (∀ n, n ≠ b.widx.toNat → (b.push k v).mem.read n = b.mem.read n) ∧
    (b.push k v).widx.toNat = (b.widx.toNat + 1) % 2 ^ k :=
  ⟨Memory.read_write_same _ _ _, fun _ h => Memory.read_write_of_ne _ _ h, toNat_idxSucc _ hk⟩

/-- The newest value of a buffer stands at delay 1. -/
theorem RingBuf.get_push_one {b : RingBuf} (v : Word) {k : Nat} (hk : k ≤ 31) (hw : b.widx.toNat < 2 ^ k) :
    (b.push k v).get k 1 = v := by
  simpa using RingBuf.get_push_succ v 0 hk hw

/-! ### The obligations -/

/-- Settles O14, by `RingBuf.get_congr`. -/
theorem delayWrapsSilently : Obligations.DelayWrapsSilently := by
  intro k b hk
  refine ⟨fun d => b.get_congr hk ?_, fun j => b.get_congr hk ?_, fun _ => b.get_congr hk ?_⟩
  · exact ((toNat_ofNat_modEq _ hk).trans (Nat.mod_modEq _ _)).symm
  · exact (toNat_ofNat_modEq _ hk).trans (Nat.modEq_zero_iff_dvd.2 (Nat.dvd_mul_left _ _))
  · refine Nat.ModEq.trans ?_ (toNat_ofNat_modEq _ hk).symm
    have hsucc : (0xFFFFFFFF : Word).toNat + 1 ≡ 2 ^ k - 1 + 1 [MOD 2 ^ k] :=
      calc 2 ^ 32
          ≡ 0 [MOD 2 ^ k] := Nat.modEq_zero_iff_dvd.2 (Nat.pow_dvd_pow 2 (by omega))
        _ ≡ 2 ^ k [MOD 2 ^ k] := (Nat.modEq_zero_iff_dvd.2 (Nat.dvd_refl _)).symm
        _ = 2 ^ k - 1 + 1 := (Nat.sub_add_cancel (Nat.two_pow_pos k)).symm
    exact hsucc.add_right_cancel' 1

/-- Settles O30: the clamped delay is in the domain of `floor_u`, where floor and fraction are exact, and the floor is at
most `N_MOD - 2`. -/
theorem delaySplitsExactly : Obligations.DelaySplitsExactly := by
  rintro k d _ _ _ hk2 hk rfl rfl rfl
  have hdom := floorDomain_clampDelay hk2 hk d
  obtain ⟨-, hone, htop⟩ := clampDelay_spec hk2 hk d
  obtain ⟨hlo, hhi⟩ := hdom.floorU_spec
  obtain ⟨hfinite, hunits, hzero⟩ := hdom.fracPart_spec
  obtain ⟨hge, hlt, hint⟩ := hdom.fracPart_range
  obtain ⟨-, hmax⟩ := maxDelay_spec hk
  have h4 : 2 ^ 2 ≤ 2 ^ k := Nat.pow_le_pow_right (by decide) hk2
  have h24 : 2 ^ k ≤ 2 ^ 24 := Nat.pow_le_pow_right (by decide) hk
  have hd1 : 1 ≤ (floorU (clampDelay k d)).toNat := by omega
  have hd2 : (floorU (clampDelay k d)).toNat ≤ 2 ^ k - 2 := by omega
  have hsucc : (floorU (clampDelay k d) + 1).toNat = (floorU (clampDelay k d)).toNat + 1 := by
    exact BitVec.toNat_add_of_lt (x := floorU (clampDelay k d)) (y := 1) (by change _ + 1 < _; omega)
  refine ⟨hd1, hd2, hsucc, ?_, ?_, hfinite, hunits, hge, hlt, hint, fun heq => ?_⟩
  · exact idxReduce_of_lt (by omega) (by omega)
  · exact idxReduce_of_lt (by omega) (by omega)
  · change clampDelay k d = maxDelay k at heq
    rw [heq] at hlo hhi hzero ⊢
    rw [hmax] at hlo hhi hzero
    have hfloor : (floorU (maxDelay k)).toNat = 2 ^ k - 2 := by omega
    exact ⟨hfloor, hzero.2 (by rw [hfloor])⟩

/-- Settles O51: each operation is one rounding of the exact result, by `roundsTo_pack`. -/
theorem operationsRoundToNearestEven : Obligations.OperationsRoundToNearestEven := by
  refine fun x y hx hy => ⟨roundsTo_fadd hx hy, ?_, roundsTo_fmul hx hy, roundsTo_fdiv hx hy⟩
  have hsub := roundsTo_fadd hx (y := fneg y) (by rwa [isFinite_fneg])
  rwa [units_fneg, ← Int.sub_eq_add_neg] at hsub

/-- Settles O52, clause by clause from the operations by class. -/
theorem arithmeticSpecialCases : Obligations.ArithmeticSpecialCases := by
  refine ⟨fun x y hx hy h => fadd_cancel hx hy h, fun x y hx hy => ?_, fun x hx => ⟨?_, ?_, ?_⟩,
    fun x y _ _ h => ?_, fun x y _ _ h => ?_, fun x y hx hy => ?_, fun x y hx hy h0 => ?_, fun x y hx h0 hy => ?_,
    fun x y hx hy => fdiv_zero_zero hx hy, fun x y hx hy => fdiv_inf_inf hx hy, fun x y hx hy => ?_,
    fun x y hx hy => ?_⟩
  · have hsum : fadd x y = x := fadd_inf_left hx (isNaN_of_finite hy) (by simp [isInf_of_finite hy])
    exact ⟨hsum, by rw [fadd_comm, hsum]⟩
  · exact fadd_inf_left hx (isNaN_of_isInf hx) fun _ => rfl
  · exact fsub_inf hx hx rfl
  · exact fsub_inf hx hx rfl
  · exact signBit_of_eq_nan_or_pack (fmul_eq_nan_or_pack x y) h
  · exact signBit_of_eq_nan_or_pack (fdiv_eq_nan_or_pack x y) h
  · exact ⟨fmul_zero_inf hx hy, by rw [fmul_comm, fmul_zero_inf hx hy]⟩
  · rw [fmul_comm y x, fmul_inf hx hy h0]
    exact ⟨isInf_infinity _, isInf_infinity _⟩
  · rw [fdiv_by_zero hx h0 hy]
    exact isInf_infinity _
  · rw [fdiv_inf_finite hx hy]
    exact isInf_infinity _
  · rw [fdiv_finite_inf hx hy, isZero_iff]
    exact magField_pack _ (by decide)

/-- Settles O53: a result is the canonical NaN or a packed magnitude, which is none; and a value pushed into a buffer or
stored in a register is read back as it is. -/
theorem naNsAreCanonical : Obligations.NaNsAreCanonical := by
  refine ⟨fun x y h => ⟨fadd_nan h, fsub_nan h, fmul_nan h, fdiv_nan h⟩,
    fun x y => ⟨fadd_eq_nan, fadd_eq_nan, eq_nan_of_eq_nan_or_pack (fmul_eq_nan_or_pack x y),
      eq_nan_of_eq_nan_or_pack (fdiv_eq_nan_or_pack x y)⟩,
    fun x y hx hy => ⟨fadd_inf_opposite hx hy, fsub_inf hx hy, fdiv_inf_inf hx hy⟩,
    fun x y hx => ⟨fun hy => ⟨fmul_zero_inf hx hy, by rw [fmul_comm]; exact fmul_zero_inf hx hy⟩, fdiv_zero_zero hx⟩,
    fun v s hw => ?_, fun v s hw => ?_, fun v s => ?_⟩
  · have hrun : (performAll s [.rbPush v, .rbGet .rb0 1]).responses = s.responses ++ [0x0000000000] ++
        [responseWord 0 false ((s.rb.push s.build.kRb.val v).get s.build.kRb.val 1)] := rfl
    rw [hrun, RingBuf.get_push_one v (Nat.le_of_lt_succ s.build.kRb.isLt) hw, List.append_assoc]
    rfl
  · have hrun : (performAll s [.fdlProc v, .rbGet .ih 1]).responses =
        s.responses ++ [responseWord 0 false (s.fdl.output s.build.kFdl.val v)] ++
        [responseWord 0 false ((s.fdl.ih.push s.build.kFdl.val v).get s.build.kFdl.val 1)] := rfl
    rw [hrun, RingBuf.get_push_one v (Nat.le_of_lt_succ s.build.kFdl.isLt) hw, List.append_assoc]
    exact ⟨_, rfl⟩
  · have hrun : (performAll s [.csrWr .fdlWet v, .csrRd .fdlWet]).responses =
        s.responses ++ [0x0000000000] ++ [responseWord 0 false v] := rfl
    rw [hrun, List.append_assoc]
    rfl

/-- Settles O54: A6 is the exactness of the fraction on the domain of `floor_u`. -/
theorem arithmeticFacts : Obligations.ArithmeticFacts := by
  refine ⟨fmul_one_left, fmul_zero_left, fun x hx hne => ?_, by decide, fun x hx => ?_, by decide, fun x => fsub_self,
    fun x h1 h2 => ?_, fun x y => ⟨fmul_comm x y, fadd_comm x y⟩⟩
  · cases h0 : isZero x
    · exact fadd_zero_right hx h0 (by decide)
    · obtain rfl : x = ZERO := (eq_of_isZero h0).resolve_right hne
      decide
  · cases h0 : isZero x
    · exact fadd_zero_right hx h0 (by decide)
    · rcases eq_of_isZero h0 with rfl | rfl <;> decide
  · obtain ⟨hx, htop, hlt⟩ := (flt_iff x _).1 h2
    have hdom := floorDomain_of_compare h1 ((fle_iff x _).2 ⟨hx, htop, hlt.le⟩)
    obtain ⟨hfinite, hunits, -⟩ := hdom.fracPart_spec
    exact ⟨hfinite, hunits, hdom.fracPart_range⟩

/-- Settles O55: finite operands by `units`, the infinities by the order key. -/
theorem comparisonsOrderValues : Obligations.ComparisonsOrderValues := by
  refine ⟨fun x y hx hy => ?_, by decide, fun x hx => ?_, by decide, fun x y h => comparisons_nan h⟩
  · simp [fgt, fge, flt_iff, fle_iff, isNaN_of_finite hx, isNaN_of_finite hy]
  · obtain ⟨hlo, hhi⟩ := orderKey_bounds hx
    have hneg := comparisons_of_orderKey_lt (by decide) (isNaN_of_finite hx) hlo
    have hpos := comparisons_of_orderKey_lt (isNaN_of_finite hx) (by decide) hhi
    exact ⟨hneg.1, hneg.2, hpos.1, hpos.2⟩

/-- Settles O56: the selections are `min` and `max` of the values, and keep the first operand where their comparison is
false. -/
theorem minMaxSelectOperands : Obligations.MinMaxSelectOperands := by
  refine ⟨fun _ _ => ⟨rfl, rfl⟩, fun x y hx hy => ?_, fun x y hx hy hxy hyx => ?_, fun x y h => ?_,
    fun k _ => clampDelay_nan k⟩
  · obtain ⟨hmin, hminu⟩ := fminSel_spec hx hy
    obtain ⟨hmax, hmaxu⟩ := fmaxSel_spec hx hy
    simp [fle_iff, fge_iff, hx, hy, hmin, hminu, hmax, hmaxu]
  · obtain ⟨-, -, hle⟩ := (fle_iff x y).1 hxy
    obtain ⟨-, -, hge⟩ := (fle_iff y x).1 hyx
    exact ⟨fminSel_eq_left ((flt_eq_false_iff hy hx).2 hle), fmaxSel_eq_left ((flt_eq_false_iff hx hy).2 hge)⟩
  · exact ⟨fminSel_eq_left (flt_nan h.symm), fmaxSel_eq_left (flt_nan h)⟩

/-- Settles O57: `u2f` is one rounding, of a value that 24 significant bits hold where they suffice. -/
theorem integerConversionRoundsToNearestEven : Obligations.IntegerConversionRoundsToNearestEven :=
  ⟨roundsTo_u2f, fun _ h => (u2f_of_le h).2, fun _ _ _ hm h => (u2f_of_significand hm h).2, by decide⟩

/-- Settles O58: the floor is the quotient by 1 in units, and `N_MOD - 2` is at most `2^24 - 2`. -/
theorem floorIsLargestIntegerBelow : Obligations.FloorIsLargestIntegerBelow := by
  refine ⟨fun x h1 h2 => (floorDomain_of_compare h1 h2).floorU_spec, fun k d hk2 hk => ?_⟩
  obtain ⟨hnan, hlo, hhi⟩ := clampDelay_spec hk2 hk d
  have htop : units 0x4B7FFFFE = (2 ^ 24 - 2) * 2 ^ 149 := by decide
  have h24 : 2 ^ k ≤ 2 ^ 24 := Nat.pow_le_pow_right (by decide) hk
  exact ⟨(fge_iff _ _).2 ⟨hnan, by decide, units_ONE ▸ hlo⟩, (fle_iff _ _).2 ⟨hnan, by decide, by omega⟩⟩

/-- Settles O21, by the laws of a push into each history. -/
theorem fdlProcEffect : Obligations.FdlProcEffect := by
  intro x s
  have hk := Nat.le_of_lt_succ s.build.kFdl.isLt
  obtain ⟨hihNew, hihOld, hihIdx⟩ := s.fdl.ih.push_spec x hk
  obtain ⟨hohNew, hohOld, hohIdx⟩ := s.fdl.oh.push_spec (s.fdl.output s.build.kFdl.val x) hk
  exact ⟨_, _, exec_eq_perform _ s, rfl, ⟨rfl, rfl, rfl, rfl⟩, hihNew, hihOld, hihIdx, hohNew, hohOld, hohIdx,
    rfl, rfl, rfl, rfl, rfl, rfl⟩

end Sys2Proof.Machine
end

section
/-!
PROOFS. The history of a buffer from its zero-fill on, and the commands of unit RB0 (R140, R142, R144, R145).
-/

namespace Sys2Proof.Machine

/-- A multiple of the capacity, as a delay, addresses the slot the next push overwrites (R140). -/
theorem RingBuf.slotOf_eq_widx {b : RingBuf} {d : Word} {k : Nat} (hk : k ≤ 31) (hw : b.widx.toNat < 2 ^ k)
    (hd : d.toNat % 2 ^ k = 0) : b.slotOf k d = b.widx :=
  BitVec.eq_of_toNat_eq ((slotOf_eq_widx_iff d hk hw).2 hd)

theorem RingBuf.foldl_push_widx_lt {b : RingBuf} (vs : List Word) {k : Nat} (hk : k ≤ 31) (hw : b.widx.toNat < 2 ^ k) :
    (vs.foldl (RingBuf.push k) b).widx.toNat < 2 ^ k := by
  induction vs generalizing b with
  | nil => exact hw
  | cons v vs ih => exact ih (push_widx_lt b v hk)

/-- The history since the zero-fill is the list of pushes, newest first, then zeros: delay `n + 1` reads the entry `n`
(R145). By induction on the pushes, newest last. -/
theorem RingBuf.get_foldl_push_empty (vs : List Word) {k n : Nat} {d : Word} (hk : k ≤ 31) (hd : d.toNat = n + 1)
    (hn : n < 2 ^ k) : (vs.foldl (RingBuf.push k) RingBuf.empty).get k d = vs.reverse.getD n 0 := by
  induction vs using List.reverseRecOn generalizing n d with
  | nil => exact zeroFilled_get k d
  | append_singleton vs v ih =>
    have hw := foldl_push_widx_lt (b := RingBuf.empty) vs hk (Nat.two_pow_pos k)
    have hpred : (d - 1).toNat = n := by bv_omega
    rw [List.foldl_concat, List.reverse_concat, ← BitVec.sub_add_cancel d 1, get_push_succ v _ hk hw, hpred,
      Nat.mod_eq_of_lt hn]
    cases n with
    | zero => rfl
    | succ n => exact ih hpred (by omega)

/-! ### The obligations -/

/-- Settles O12: the write is `RingBuf.push_spec`, and the delays 0 and `N` are multiples of the capacity. -/
theorem pushWritesOldestSlotOnly : Obligations.PushWritesOldestSlotOnly := by
  intro k b v hk hw
  obtain ⟨hnew, hold, hidx⟩ := b.push_spec v hk
  have hcapacity : 2 ^ k ≡ 0 [MOD 2 ^ k] := Nat.modEq_zero_iff_dvd.2 (Nat.dvd_refl _)
  exact ⟨hnew, hold, hidx, RingBuf.slotOf_eq_widx hk hw (Nat.zero_mod _),
    RingBuf.slotOf_eq_widx hk hw ((toNat_ofNat_modEq _ hk).trans hcapacity)⟩

/-- Settles O15: delay `d` reads the entry `d - 1` of the history. -/
theorem wrapCorrectness : Obligations.WrapCorrectness := by
  rintro k vs d hk ⟨hpos, hle⟩
  exact RingBuf.get_foldl_push_empty vs hk (by omega) (by omega)

/-- Settles O18, by the law of a push into RB0. -/
theorem rbPushEffect : Obligations.RbPushEffect := by
  intro v s
  obtain ⟨hnew, hold, hidx⟩ := s.rb.push_spec v (Nat.le_of_lt_succ s.build.kRb.isLt)
  exact ⟨_, exec_eq_perform _ s, ⟨rfl, rfl, rfl, rfl⟩, hnew, hold, hidx, rfl, rfl, rfl⟩

/-- Settles O20: RB0 becomes the zero-filled buffer, of which every delay reads zero. -/
theorem rbInitEffect : Obligations.RbInitEffect := by
  intro s
  exact ⟨_, exec_eq_perform _ s, ⟨rfl, rfl, rfl, rfl⟩, Memory.read_nil, rfl, RingBuf.zeroFilled_get _, rfl, rfl, rfl⟩

end Sys2Proof.Machine
end

section
/-!
PROOFS. The feedback delay line (R161 to R168): what a run of FDL.PROC answers from zero-filled histories, the
identity at zero gains, the decay of an impulse, and the accepted delay lengths.
-/

namespace Sys2Proof.Machine

/-! ### Past samples and the histories (R145, R162) -/

/-- A sample at least one command back is not changed by the newest one. -/
theorem past_concat (zs : List Word) (z : Word) {n D : Nat} (hD : 1 ≤ D) (hn : n ≤ zs.length) :
    past (zs ++ [z]) n D = past zs n D := by
  unfold past
  split
  · rw [List.getD_append _ _ _ _ (by omega)]
  · rfl

/-- A history since the zero-fill, read at a delay that is `D` modulo the capacity, gives the sample `D` commands back:
`D` runs from 1 to the capacity (R145, R166). -/
theorem RingBuf.get_foldl_push_eq_past (zs : List Word) {k D : Nat} {d : Word} (hk : k ≤ 31) (hD : 1 ≤ D)
    (hle : D ≤ 2 ^ k) (hd : d.toNat ≡ D [MOD 2 ^ k]) :
    (zs.foldl (RingBuf.push k) RingBuf.empty).get k d = past zs zs.length D := by
  have h31 : 2 ^ k ≤ 2 ^ 31 := Nat.pow_le_pow_right (by decide) hk
  have htoNat : (BitVec.ofNat 32 D).toNat = D - 1 + 1 := by
    rw [BitVec.toNat_ofNat, Nat.mod_eq_of_lt (by omega), Nat.sub_add_cancel hD]
  rw [RingBuf.get_congr _ hk (hd.trans (toNat_ofNat_modEq D hk).symm), get_foldl_push_empty zs hk htoNat (by omega),
    past]
  split
  · have hlen : D - 1 < zs.length := by omega
    have hidx : zs.length - 1 - (D - 1) = zs.length - D := by omega
    rw [List.getD_eq_getElem?_getD, List.getElem?_reverse hlen, hidx, List.getD_eq_getElem?_getD]
  · exact List.getD_eq_default _ _ (by rw [List.length_reverse]; omega)

/-! ### A run of FDL.PROC (R161, R162) -/

/-- The unit with the histories that the inputs `xs` and the outputs `ys` leave since the zero-fill. -/
def FdlUnit.withHistories (k : Nat) (u : FdlUnit) (xs ys : List Word) : FdlUnit :=
  { u with ih := xs.foldl (RingBuf.push k) RingBuf.empty, oh := ys.foldl (RingBuf.push k) RingBuf.empty }

theorem FdlUnit.withHistories_nil {u : FdlUnit} (k : Nat) (hih : u.ih = RingBuf.empty) (hoh : u.oh = RingBuf.empty) :
    u.withHistories k [] [] = u := by
  cases u
  cases hih
  cases hoh
  rfl

/-- FDL.PROC appends its input and its output to the histories. -/
theorem FdlUnit.process_withHistories (k : Nat) (u : FdlUnit) (xs ys : List Word) (x : Word) :
    (u.withHistories k xs ys).process k x =
      u.withHistories k (xs ++ [x]) (ys ++ [(u.withHistories k xs ys).output k x]) := by
  simp only [FdlUnit.process, FdlUnit.withHistories, List.foldl_concat]

theorem FdlUnit.output_withHistories {u : FdlUnit} (xs ys : List Word) (x : Word) {k D : Nat} (hk : k ≤ 31)
    (hD : 1 ≤ D) (hle : D ≤ 2 ^ k) (hd : u.delay.toNat ≡ D [MOD 2 ^ k]) :
    (u.withHistories k xs ys).output k x =
      fdlOutput u.wet u.fb x (past xs xs.length D) (past ys ys.length D) := by
  rw [← RingBuf.get_foldl_push_eq_past xs hk hD hle hd, ← RingBuf.get_foldl_push_eq_past ys hk hD hle hd]
  rfl

/-- The recurrence goes on with one more sample. -/
theorem fdlRecurrence_concat {wet fb : Word} {D : Nat} {xs ys : List Word} (x : Word) (hD : 1 ≤ D)
    (hlen : ys.length = xs.length) (h : FdlRecurrence wet fb D xs ys) :
    FdlRecurrence wet fb D (xs ++ [x])
      (ys ++ [fdlOutput wet fb x (past xs xs.length D) (past ys ys.length D)]) := by
  intro n hn
  rw [List.length_append, List.length_singleton] at hn
  rw [past_concat xs x hD (by omega), past_concat ys _ hD (by omega)]
  rcases Nat.lt_or_eq_of_le (Nat.le_of_lt_succ hn) with hlt | rfl
  · rw [List.getD_append _ _ _ _ (by omega), List.getD_append _ _ _ _ hlt, h n hlt]
  · rw [List.getD_append_right _ _ _ _ hlen.le, List.getD_append_right _ _ _ _ le_rfl, hlen]
    simp [fdlOutput]

/-- From zero-filled histories a run of FDL.PROC answers the recurrence with any `D` from 1 to the capacity that DELAY
is modulo the capacity. By induction on the inputs, newest last: the histories are those of the inputs and outputs so
far. -/
theorem exists_fdlAnswers {s : State} {D : Nat} (hih : s.fdl.ih = RingBuf.empty) (hoh : s.fdl.oh = RingBuf.empty)
    (hD : 1 ≤ D) (hle : D ≤ 2 ^ s.build.kFdl.val) (hd : s.fdl.delay.toNat ≡ D [MOD 2 ^ s.build.kFdl.val])
    (xs : List Word) :
    ∃ ys, FdlAnswers s xs ys ∧ FdlRecurrence s.fdl.wet s.fdl.fb D xs ys ∧
      (performAll s (xs.map Instr.fdlProc)).build = s.build ∧
      (performAll s (xs.map Instr.fdlProc)).fdl = s.fdl.withHistories s.build.kFdl.val xs ys := by
  induction xs using List.reverseRecOn with
  | nil =>
    exact ⟨[], ⟨(List.append_nil _).symm, rfl⟩, fun n hn => absurd hn (Nat.not_lt_zero n), rfl,
      (FdlUnit.withHistories_nil _ hih hoh).symm⟩
  | append_singleton xs x ih =>
    obtain ⟨ys, ⟨hrsp, hlen⟩, hrec, hbuild, hfdl⟩ := ih
    have hout := FdlUnit.output_withHistories (u := s.fdl) xs ys x (Nat.le_of_lt_succ s.build.kFdl.isLt) hD hle hd
    have hrun : performAll s ((xs ++ [x]).map Instr.fdlProc) =
        perform (performAll s (xs.map Instr.fdlProc)) (.fdlProc x) := by
      rw [List.map_append]
      exact List.foldl_concat ..
    refine ⟨ys ++ [_], ⟨?_, by simp [hlen]⟩, fdlRecurrence_concat x hD hlen hrec, ?_, ?_⟩ <;>
      rw [hrun, perform_fdlProc]
    · rw [State.respond_responses, State.setFdl_responses, hbuild, hfdl, hout, hrsp, List.map_append,
        List.append_assoc]
      rfl
    · exact hbuild
    · rw [State.respond_fdl, State.setFdl_fdl, hbuild, hfdl, FdlUnit.process_withHistories, hout]

/-! ### Zero gains (R167) -/

/-- Both products with the gain +0 are signed zeros, so the sum is the input, but for the sign of a zero (R167). -/
theorem fdlOutput_zero_gains {x di dout : Word} (hx : isNaN x = false) (hdi : isFinite di = true)
    (hdout : isFinite dout = true) :
    fdlOutput ZERO ZERO x di dout =
      if x = NEG_ZERO ∧ (signBit di = false ∨ signBit dout = false) then ZERO else x := by
  have hone : fsub ONE ZERO = ONE := by decide
  rw [fdlOutput, hone, fmul_one_left, hx, fmul_zero_left, hdi, fmul_zero_left, hdout]
  simp only [Bool.false_eq_true, if_false, if_true]
  have hzero : ∀ b : Bool, isZero (if b then NEG_ZERO else ZERO) = true := by decide
  cases h0 : isZero x
  · have hne : x ≠ NEG_ZERO := fun h => by rw [h] at h0; exact absurd h0 (by decide)
    rw [fadd_zero_right hx h0 (hzero _), fadd_zero_right hx h0 (hzero _), if_neg fun h => hne h.1]
  · rcases eq_of_isZero h0 with rfl | rfl <;> cases signBit di <;> cases signBit dout <;> decide

/-- A NaN, or a sample that is not finite times the gain +0, makes the output the canonical NaN (R118, R167). -/
theorem fdlOutput_zero_gains_nan {x di dout : Word}
    (h : isNaN x = true ∨ isFinite di = false ∨ isFinite dout = false) : fdlOutput ZERO ZERO x di dout = NAN := by
  have hmul : ∀ {z : Word}, isFinite z = false → isNaN (fmul ZERO z) = true := fun {z} hz => by
    rw [fmul_zero_left, hz]
    exact isNaN_NAN
  rw [fdlOutput]
  rcases h with hx | hdi | hdout
  · rw [fmul_nan (.inr hx), fadd_nan (.inl isNaN_NAN), fadd_nan (.inl isNaN_NAN)]
  · rw [fadd_nan (.inr (hmul hdi)), fadd_nan (.inl isNaN_NAN)]
  · exact fadd_nan (.inr (hmul hdout))

/-- A finite input stays finite: only the sign of a zero can change. -/
theorem isFinite_fdlOutput_zero_gains {x di dout : Word} (hx : isFinite x = true) (hdi : isFinite di = true)
    (hdout : isFinite dout = true) : isFinite (fdlOutput ZERO ZERO x di dout) = true := by
  rw [fdlOutput_zero_gains (isNaN_of_finite hx) hdi hdout]
  split
  · decide
  · exact hx

theorem units_fdlOutput_zero_gains {x di dout : Word} (hx : isFinite x = true) (hdi : isFinite di = true)
    (hdout : isFinite dout = true) : units (fdlOutput ZERO ZERO x di dout) = units x := by
  rw [fdlOutput_zero_gains (isNaN_of_finite hx) hdi hdout]
  split
  · next h => rw [h.1]; decide
  · rfl

/-- Pushing a finite sample keeps a buffer finite (R305). -/
theorem RingBuf.push_allFinite {b : RingBuf} {v : Word} (k : Nat) (hb : b.allFinite) (hv : isFinite v = true) :
    (b.push k v).allFinite := by
  intro n
  rw [push_mem]
  by_cases hn : n = b.widx.toNat
  · rw [hn, Memory.read_write_same, hv]
  · rw [Memory.read_write_of_ne _ _ hn, hb n]

/-! ### The decay of an impulse (R168) -/

/-- A value of the decaying echo: not a NaN, sign bit 0. -/
def PositiveSign (y : Word) : Prop := isNaN y = false ∧ signBit y = false

/-- A gain strictly between 0 and 1 is finite, not a zero, and has sign bit 0. -/
theorem fractionalGain_spec {f : Word} (h0 : flt ZERO f = true) (h1 : flt f ONE = true) :
    isFinite f = true ∧ isZero f = false ∧ signBit f = false := by
  have hzero : units ZERO = 0 := by decide
  obtain ⟨-, hnan, hpos⟩ := (flt_iff _ _).1 h0
  rw [hzero] at hpos
  have hsign := signBit_of_units_pos hpos
  refine ⟨isFinite_of_not_nan_of_not_inf hnan ?_, ?_, hsign⟩
  · rw [Bool.eq_false_iff]
    intro hinf
    rw [← infinity_signBit hinf, hsign] at h1
    exact absurd h1 (by decide)
  · rw [Bool.eq_false_iff, ne_eq, ← units_eq_zero]
    omega

theorem fmul_zero_right_of_sign {f : Word} (hf : isFinite f = true) (hs : signBit f = false) : fmul f ZERO = ZERO := by
  rw [fmul_comm, fmul_zero_left, hf, hs]
  rfl

theorem positiveSign_fmul {f y : Word} (hf : isFinite f = true) (hf0 : isZero f = false) (hs : signBit f = false)
    (hy : PositiveSign y) : PositiveSign (fmul f y) := by
  obtain ⟨hyn, hys⟩ := hy
  have hnan : isNaN (fmul f y) = false := by
    cases hi : isInf y
    · rw [fmul_finite hf (isFinite_of_not_nan_of_not_inf hyn hi)]
      exact isNaN_pack _ (roundMag_le _ _)
    · rw [fmul_comm, fmul_inf hi (isNaN_of_finite hf) hf0]
      exact isNaN_of_isInf (isInf_infinity _)
  refine ⟨hnan, ?_⟩
  rw [signBit_of_eq_nan_or_pack (fmul_eq_nan_or_pack f y) hnan, xorSign, hs, hys]
  rfl

theorem fadd_zero_left_of_positiveSign {y : Word} (hy : PositiveSign y) : fadd ZERO y = y := by
  obtain ⟨hnan, hsign⟩ := hy
  rw [fadd_comm]
  cases h0 : isZero y
  · exact fadd_zero_right hnan h0 (by decide)
  · rcases eq_of_isZero h0 with rfl | rfl
    · decide
    · exact absurd hsign (by decide)

/-- A unit impulse and then `m` zeros (R168). -/
def impulse (m : Nat) : List Word := ONE :: List.replicate m ZERO

theorem getD_impulse (m n : Nat) : (impulse m).getD n 0 = if n = 0 then ONE else ZERO := by
  cases n with
  | zero => rfl
  | succ n =>
    rw [impulse, List.getD_cons_succ, if_neg (Nat.succ_ne_zero n), List.getD_eq_getElem?_getD, List.getElem?_replicate]
    split <;> rfl

theorem past_impulse (m n D : Nat) : past (impulse m) n D = if n = D then ONE else ZERO := by
  rw [past, getD_impulse]
  by_cases hlt : n < D
  · rw [if_neg (by omega), if_neg (by omega)]
    rfl
  · rw [if_pos (by omega)]
    exact if_congr (by omega) rfl rfl

/-- With WET = 1 the output is the delayed input plus the fed-back output, as the input has the samples 0 and 1. -/
theorem fdlOutput_wet_one {x di : Word} (f dout : Word) (hx : x = ONE ∨ x = ZERO) (hdi : di = ONE ∨ di = ZERO) :
    fdlOutput ONE f x di dout = fadd di (fmul f dout) := by
  have hsum : fadd (fmul (fsub ONE ONE) x) (fmul ONE di) = di := by
    rcases hx with rfl | rfl <;> rcases hdi with rfl | rfl <;> decide
  rw [fdlOutput, hsum]

section
variable {f : Word} {D m : Nat} {ys : List Word}

/-- The recurrence of an impulse: the impulse comes back after `D` samples, and every output is fed back (R168). -/
theorem getD_of_impulse_recurrence (hrec : FdlRecurrence ONE f D (impulse m) ys) {n : Nat} (hn : n ≤ m) :
    ys.getD n 0 = fadd (if n = D then ONE else ZERO) (fmul f (past ys n D)) := by
  rw [hrec n (by simp [impulse]; omega), getD_impulse, past_impulse]
  exact fdlOutput_wet_one f _ (ite_eq_or_eq _ _ _) (ite_eq_or_eq _ _ _)

variable (h0 : flt ZERO f = true) (h1 : flt f ONE = true) (hD : 1 ≤ D)
  (hrec : FdlRecurrence ONE f D (impulse m) ys)
include h0 h1 hrec

/-- Before the impulse comes back the output is +0. -/
theorem echo_of_lt {n : Nat} (hn : n ≤ m) (hlt : n < D) : ys.getD n 0 = ZERO := by
  obtain ⟨hf, -, hs⟩ := fractionalGain_spec h0 h1
  rw [getD_of_impulse_recurrence hrec hn, past, if_neg (by omega), if_neg (by omega)]
  exact (congrArg (fadd ZERO) (fmul_zero_right_of_sign hf hs)).trans (by decide)

include hD

/-- The impulse comes back once, unscaled. -/
theorem echo_at_delay (hDm : D ≤ m) : ys.getD D 0 = ONE := by
  obtain ⟨hf, -, hs⟩ := fractionalGain_spec h0 h1
  rw [getD_of_impulse_recurrence hrec hDm, if_pos rfl, past, if_pos le_rfl, Nat.sub_self,
    echo_of_lt h0 h1 hrec (Nat.zero_le m) hD, fmul_zero_right_of_sign hf hs]
  decide

/-- No output is a NaN or has its sign bit set: it is +0, 1, or the product of `f` with such an output. -/
theorem echo_positiveSign {n : Nat} (hn : n ≤ m) : PositiveSign (ys.getD n 0) := by
  obtain ⟨hf, hf0, hs⟩ := fractionalGain_spec h0 h1
  induction n using Nat.strong_induction_on with
  | _ n ih =>
    rcases Nat.lt_trichotomy n D with hlt | rfl | hgt
    · rw [echo_of_lt h0 h1 hrec hn hlt]
      exact ⟨by decide, by decide⟩
    · rw [echo_at_delay h0 h1 hD hrec hn]
      exact ⟨by decide, by decide⟩
    · have hprod := positiveSign_fmul hf hf0 hs (ih (n - D) (by omega) (by omega))
      rw [getD_of_impulse_recurrence hrec hn, if_neg (by omega), past, if_pos hgt.le,
        fadd_zero_left_of_positiveSign hprod]
      exact hprod

/-- After that every output is the rounded product of `f` with the one `D` samples before: adding it to +0 is exact. -/
theorem echo_of_gt {n : Nat} (hn : n ≤ m) (hgt : D < n) : ys.getD n 0 = fmul f (ys.getD (n - D) 0) := by
  obtain ⟨hf, hf0, hs⟩ := fractionalGain_spec h0 h1
  rw [getD_of_impulse_recurrence hrec hn, if_neg (by omega), past, if_pos hgt.le]
  exact fadd_zero_left_of_positiveSign
    (positiveSign_fmul hf hf0 hs (echo_positiveSign h0 h1 hD hrec (by omega)))

/-- Between the multiples of the delay every output is +0: `f` times +0 is +0. -/
theorem echo_off_multiples {n : Nat} (hn : n ≤ m) (hmod : n % D ≠ 0) : ys.getD n 0 = ZERO := by
  obtain ⟨hf, -, hs⟩ := fractionalGain_spec h0 h1
  induction n using Nat.strong_induction_on with
  | _ n ih =>
    rcases Nat.lt_trichotomy n D with hlt | rfl | hgt
    · exact echo_of_lt h0 h1 hrec hn hlt
    · exact absurd (Nat.mod_self n) hmod
    · have hprev : (n - D) % D ≠ 0 := by rwa [← Nat.mod_eq_sub_mod hgt.le]
      rw [echo_of_gt h0 h1 hD hrec hn hgt, ih (n - D) (by omega) (by omega) hprev, fmul_zero_right_of_sign hf hs]

/-- From one multiple of the delay to the next the echo decays by the factor `f` (R168). -/
theorem echo_succ_multiple {j : Nat} (hj : 1 ≤ j) (hjm : (j + 1) * D ≤ m) :
    ys.getD ((j + 1) * D) 0 = fmul f (ys.getD (j * D) 0) := by
  have hsucc : (j + 1) * D = j * D + D := Nat.succ_mul j D
  have hpos : 1 ≤ j * D := Nat.mul_pos hj hD
  rw [echo_of_gt h0 h1 hD hrec hjm (by omega), hsucc, Nat.add_sub_cancel]

end

/-! ### The accepted delay lengths (R164) -/

theorem perform_fdlInit_of_lt {s : State} {v : Word} (h : v.toNat < 2 ^ s.build.kFdl.val) :
    perform s (.fdlInit v) = (s.setFdl (fdlConstruct v)).respond 0 false := by
  rcases perform_fdlInit s v with ⟨e, he, -⟩ | ⟨-, hp⟩
  · cases he.symm.trans (delayError_none.2 h)
  · exact hp

theorem perform_fdlInit_of_le {s : State} {v : Word} (h : 2 ^ s.build.kFdl.val ≤ v.toNat) :
    perform s (.fdlInit v) = s.raise .delay := by
  rcases perform_fdlInit s v with ⟨e, he, hp⟩ | ⟨hd, -⟩
  · rw [hp, (delayError_some.1 he).2]
  · exact absurd (delayError_none.1 hd) (not_lt.2 h)

theorem perform_csrWr_fdlDelay_of_lt {s : State} {v : Word} (h : v.toNat < 2 ^ s.build.kFdl.val) :
    perform s (.csrWr .fdlDelay v) = (storeCsr s .fdlDelay v).respond 0 false := by
  rcases perform_csrWr s .fdlDelay v with ⟨e, he, -⟩ | ⟨-, hp⟩
  · cases he.symm.trans (delayError_none.2 h)
  · exact hp

theorem perform_csrWr_fdlDelay_of_le {s : State} {v : Word} (h : 2 ^ s.build.kFdl.val ≤ v.toNat) :
    perform s (.csrWr .fdlDelay v) = s.raise .delay := by
  rcases perform_csrWr s .fdlDelay v with ⟨e, he, hp⟩ | ⟨hd, -⟩
  · rw [hp, (delayError_some.1 he).2]
  · exact absurd (delayError_none.1 hd) (not_lt.2 h)

/-- No command brings DELAY to the capacity: its two writers check the value (R45 (b), R164). -/
theorem perform_delay_lt {s : State} (i : Instr) (h : s.fdl.delay.toNat < 2 ^ s.build.kFdl.val) :
    (perform s i).fdl.delay.toNat < 2 ^ s.build.kFdl.val := by
  obtain ⟨-, -, hwriters, -⟩ := eachStateHasItsWriters i s _ (exec_eq_perform i s)
  by_cases hsame : (perform s i).fdl.delay = s.fdl.delay
  · rwa [hsame]
  · rcases hwriters hsame with ⟨v, rfl⟩ | ⟨v, rfl⟩ <;>
      rcases Nat.lt_or_ge v.toNat (2 ^ s.build.kFdl.val) with hv | hv
    · rw [perform_fdlInit_of_lt hv]
      exact hv
    · rw [perform_fdlInit_of_le hv]
      exact h
    · rw [perform_csrWr_fdlDelay_of_lt hv]
      exact hv
    · rw [perform_csrWr_fdlDelay_of_le hv]
      exact h

/-! ### The obligations -/

/-- Settles O22: the recurrence of a run, with `D` the value of DELAY. -/
theorem fdlOutputsSatisfyRecurrence : Obligations.FdlOutputsSatisfyRecurrence := by
  intro s xs hih hoh hD hlt
  obtain ⟨ys, hans, hrec, -⟩ := exists_fdlAnswers hih hoh hD hlt.le rfl xs
  exact ⟨ys, hans, hrec⟩

/-- Settles O23: the recurrence of a run, with `D` the capacity, which is 0 modulo itself. -/
theorem delayZeroIsFullBufferDelay : Obligations.DelayZeroIsFullBufferDelay := by
  refine ⟨fun s => delayError_none.2 (Nat.two_pow_pos _), fun s xs hih hoh hd => ?_⟩
  have hmod : s.fdl.delay.toNat ≡ 2 ^ s.build.kFdl.val [MOD 2 ^ s.build.kFdl.val] := by
    rw [hd]
    exact (Nat.modEq_zero_iff_dvd.2 (Nat.dvd_refl _)).symm
  obtain ⟨ys, hans, hrec, -⟩ := exists_fdlAnswers hih hoh (Nat.two_pow_pos _) le_rfl hmod xs
  exact ⟨ys, hans, hrec⟩

/-- Settles O24: the output at zero gains, by the class of the input and of the history samples. -/
theorem zeroGainIdentity : Obligations.ZeroGainIdentity := by
  intro x s hwet hfb
  have hout : s.fdl.output s.build.kFdl.val x = fdlOutput ZERO ZERO x
      (s.fdl.ih.get s.build.kFdl.val s.fdl.delay) (s.fdl.oh.get s.build.kFdl.val s.fdl.delay) := by
    rw [FdlUnit.output, hwet, hfb]
    rfl
  refine ⟨_, _, _, _, exec_eq_perform _ s, rfl, rfl, rfl, ?_⟩
  rw [hout]
  refine ⟨fun hx hdi hdout =>
      ⟨isFinite_fdlOutput_zero_gains hx hdi hdout, units_fdlOutput_zero_gains hx hdi hdout, ?_⟩,
    fun hx hdi hdout => ?_, fun hx => fdlOutput_zero_gains_nan (.inl hx), fun h => fdlOutput_zero_gains_nan (.inr h),
    fun hx hih hoh => ⟨RingBuf.push_allFinite _ hih hx, RingBuf.push_allFinite _ hoh ?_⟩⟩
  · rw [fdlOutput_zero_gains (isNaN_of_finite hx) hdi hdout]
    refine ⟨fun hne => if_neg fun h => hne h.1, fun hx hsign => if_pos ⟨hx, hsign⟩, fun hx hsi hso => ?_⟩
    rw [if_neg (by simp [hsi, hso]), hx]
  · have hne : x ≠ NEG_ZERO := fun h => by rw [h] at hx; exact absurd hx (by decide)
    rw [fdlOutput_zero_gains (isNaN_of_isInf hx) hdi hdout, if_neg fun h => hne h.1]
  · rw [hout]
    exact isFinite_fdlOutput_zero_gains hx (hih _) (hoh _)

/-- Settles O25: a run answers the recurrence, which an impulse solves by an echo at every multiple of the delay. -/
theorem feedbackDecayIsGeometric : Obligations.FeedbackDecayIsGeometric := by
  intro s m hih hoh hwet h0 h1 hD hlt
  obtain ⟨ys, hans, hrec, -⟩ := exists_fdlAnswers hih hoh hD hlt.le rfl (impulse m)
  rw [hwet] at hrec
  refine ⟨ys, hans, echo_of_lt h0 h1 hrec (Nat.zero_le m) hD, fun n hn => echo_off_multiples h0 h1 hD hrec hn,
    echo_at_delay h0 h1 hD hrec, fun h2 => ?_, fun j hj => echo_succ_multiple h0 h1 hD hrec hj⟩
  have hf := isNaN_of_finite (fractionalGain_spec h0 h1).1
  have hsecond := echo_succ_multiple h0 h1 hD hrec (j := 1) le_rfl h2
  rw [hsecond, Nat.one_mul, echo_at_delay h0 h1 hD hrec (by omega), fmul_comm, fmul_one_left, hf]
  rfl

/-- Settles O26: the two writers of DELAY on either side of the capacity, and `perform_delay_lt`. -/
theorem delayAcceptedIffBelowCapacity : Obligations.DelayAcceptedIffBelowCapacity := by
  refine ⟨fun v s hv => ?_, fun v s hv => ?_, fun i s t ht h => ?_⟩
  · rw [exec_eq_perform, exec_eq_perform, perform_fdlInit_of_lt hv, perform_csrWr_fdlDelay_of_lt hv]
    exact ⟨rfl, rfl⟩
  · rw [exec_eq_perform, exec_eq_perform, perform_fdlInit_of_le hv, perform_csrWr_fdlDelay_of_le hv]
    exact ⟨rfl, rfl⟩
  · rw [exec_eq_perform, Host.Outcome.next.injEq] at ht
    rw [← ht, perform_build]
    exact perform_delay_lt i h

end Sys2Proof.Machine
end

section
/-!
PROOFS. The modulation engine (R181 to R202): the phase, the clamp, the interpolation and the mix law at their ends, the
delay at depth zero, the log, and the effect of MOD.PROC and MOD.INIT.
-/

namespace Sys2Proof.Machine

/-! ### The phase (R184, R185) -/

/-- Rounding does not take a sum past a finite value it does not exceed. -/
theorem fadd_le_of_units_le {x y z : Word} (hx : isFinite x = true) (hy : isFinite y = true) (hz : isFinite z = true)
    (h0 : 0 ≤ units x + units y) (hle : units x + units y ≤ units z) :
    isFinite (fadd x y) = true ∧ units (fadd x y) ≤ units z := by
  rw [fadd_finite hx hy]
  split
  · next hsum =>
    have hzero : ∀ w, isZero w = true → isFinite w = true ∧ units w ≤ units z := fun w hw =>
      ⟨isFinite_of_isZero hw, by rw [(units_eq_zero w).2 hw]; omega⟩
    split <;> exact hzero _ (by decide)
  · next hsum =>
    have hfin := (isFinite_iff z).1 hz
    have hmag : units z = unitsOfMag (magField z) := by
      rw [units_eq, signBit_of_units_pos (by omega), if_neg (by decide)]
    have hround : roundMag (units x + units y).natAbs 1 ≤ magField z := by
      rw [← roundMag_exact (m := magField z) (den := 1) Nat.one_pos hfin.le]
      exact roundMag_mono Nat.one_pos Nat.one_pos (by omega)
    rw [decide_eq_false (by omega), isFinite_pack _ (roundMag_le _ _), units_pack _ (roundMag_lt _ _), hmag]
    exact ⟨by omega, by simpa using unitsOfMag_le.2 hround⟩

/-- The greatest binary32 value below one turn. -/
def BELOW_TURN : Word := 0x40C90FDA

theorem units_BELOW_TURN_lt : units BELOW_TURN < units TWO_PI := by decide

theorem units_le_BELOW_TURN {x : Word} (h : units x < units TWO_PI) : units x ≤ units BELOW_TURN := by
  have hturn : units TWO_PI = unitsOfMag (0x40C90FDA + 1) := by decide
  have hbelow : units BELOW_TURN = unitsOfMag 0x40C90FDA := by decide
  rw [hturn, units_eq] at h
  rw [hbelow, units_eq]
  split
  · omega
  · next hs =>
    rw [if_neg hs, Int.ofNat_lt, unitsOfMag_lt] at h
    exact Int.ofNat_le.2 (unitsOfMag_le.2 (Nat.le_of_lt_succ h))

theorem phaseInTurn_iff (p : Word) :
    phaseInTurn p ↔ isFinite p = true ∧ 0 ≤ units p ∧ units p ≤ units BELOW_TURN := by
  have hfin : isFinite BELOW_TURN = true := by decide
  rw [phaseInTurn, fge_zero_iff, flt_iff]
  constructor
  · rintro ⟨⟨hnan, h0⟩, -, -, hlt⟩
    refine ⟨isFinite_of_not_nan_of_not_inf hnan ?_, h0, units_le_BELOW_TURN hlt⟩
    rw [Bool.eq_false_iff]
    intro hinf
    rw [← infinity_signBit hinf, signBit_of_units_pos (units_pos_of_isInf hinf h0)] at hlt
    exact absurd hlt (by decide)
  · rintro ⟨hp, h0, hle⟩
    exact ⟨⟨isNaN_of_finite hp, h0⟩, isNaN_of_finite hp, by decide, hle.trans_lt units_BELOW_TURN_lt⟩

/-- A difference in `[0, 2π)` does not round up to one turn. -/
theorem phaseInTurn_fsub {x y : Word} (hx : isFinite x = true) (hy : isFinite y = true) (h0 : units y ≤ units x)
    (hle : units x ≤ units y + units BELOW_TURN) : phaseInTurn (fsub x y) := by
  have hneg : isFinite (fneg y) = true := by rwa [isFinite_fneg]
  have hunits := units_fneg y
  obtain ⟨hfin, hlt⟩ := fadd_le_of_units_le hx hneg (z := BELOW_TURN) (by decide) (by omega) (by omega)
  exact (phaseInTurn_iff _).2
    ⟨hfin, ((fge_zero_iff _).1 (fge_zero_fadd_finite hx hneg (by omega))).2, hlt⟩

/-- One conditional subtraction brings the sum of two values of `[0, 2π)` back there (R185): twice the greatest value
below one turn is itself a binary32 value, so the rounded sum does not exceed it. -/
theorem phaseInTurn_wrapPhase_fadd {p q : Word} (hp : phaseInTurn p) (hq : phaseInTurn q) :
    phaseInTurn (wrapPhase (fadd p q)) := by
  obtain ⟨hpf, hp0, hple⟩ := (phaseInTurn_iff p).1 hp
  obtain ⟨hqf, hq0, hqle⟩ := (phaseInTurn_iff q).1 hq
  have htwice : units 0x41490FDA = 2 * units BELOW_TURN := by decide
  have hturn := units_BELOW_TURN_lt
  obtain ⟨hfin, hle⟩ := fadd_le_of_units_le hpf hqf (z := 0x41490FDA) (by decide) (by omega) (by omega)
  have hge := fge_zero_fadd_finite hpf hqf (by omega)
  rw [wrapPhase]
  split
  · next hwrap =>
    obtain ⟨-, -, hwrap⟩ := (fge_iff _ _).1 hwrap
    exact phaseInTurn_fsub hfin (by decide) hwrap (by omega)
  · next hwrap =>
    refine ⟨hge, (flt_iff _ _).2 ⟨isNaN_of_finite hfin, by decide, not_le.1 fun h => hwrap ?_⟩⟩
    exact (fge_iff _ _).2 ⟨isNaN_of_finite hfin, by decide, h⟩

/-! ### What MOD.PROC and MOD.INIT alone change (R46) -/

/-- Only MOD.PROC and MOD.INIT write the phase and the log state. -/
theorem perform_modState_eq {s : State} {i : Instr} (hproc : ¬∃ l x b, i = .modProc l x b) (hv : i ≠ .modInitVibrato)
    (hc : i ≠ .modInitChorus) (hf : i ≠ .modInitFlanger) :
    (perform s i).mod.phase = s.mod.phase ∧ (perform s i).mod.firstDone = s.mod.firstDone ∧
      (perform s i).mod.logged = s.mod.logged ∧ (perform s i).mod.logMin = s.mod.logMin ∧
      (perform s i).mod.logMax = s.mod.logMax := by
  obtain ⟨-, -, -, -, -, hwriters, -⟩ := eachStateHasItsWriters i s _ (exec_eq_perform i s)
  by_contra hne
  rcases hwriters (by tauto) with h | h | h | h
  · exact hproc h
  · exact hv h
  · exact hc h
  · exact hf h

theorem ModUnit.records_eq_decide (u : ModUnit) (l : Bool) :
    u.records l = decide (u.firstDone = false ∧ l = true) := by
  rw [records]
  cases u.firstDone <;> cases l <;> rfl

theorem ModUnit.records_of_firstDone {u : ModUnit} (l : Bool) (h : u.firstDone = true) : u.records l = false := by
  rw [records, h]
  rfl

/-- After the first call no response has its log bit set (R201). -/
theorem perform_logOf_of_firstDone {s : State} (i : Instr) (h : s.mod.firstDone = true) :
    ∃ r, (perform s i).responses = s.responses ++ [r] ∧ logOf r = 0 := by
  have hclear : ∀ e d, logOf (responseWord e false d) = 0 := fun e d => by
    obtain ⟨-, -, hlog, -⟩ := responseWord_fields e false d
    exact hlog
  by_cases hproc : ∃ l x b, i = .modProc l x b
  · obtain ⟨l, x, b, rfl⟩ := hproc
    rcases perform_modProc s l x b with ⟨-, hp⟩ | ⟨-, hp⟩ <;> rw [hp]
    · exact ⟨_, rfl, hclear _ _⟩
    · rw [ModUnit.records_of_firstDone l h]
      exact ⟨_, rfl, hclear _ _⟩
  · rcases perform_answered s i with ⟨e, hrsp, -⟩ | ⟨l, d, ⟨hrsp, -⟩, hlog⟩
    · exact ⟨_, hrsp, hclear _ _⟩
    · have hl : l = false := Bool.eq_false_iff.2 fun hl => hproc ⟨true, hlog hl⟩
      exact ⟨_, hl ▸ hrsp, hclear _ _⟩

/-! ### The clamp, case by case (R189) -/

/-- A delay in the range is unchanged. -/
theorem clampDelay_of_mem {k : Nat} {d : Word} (h1 : fge d ONE = true) (h2 : fle d (maxDelay k) = true) :
    clampDelay k d = d := by
  obtain ⟨hd, hone, hlo⟩ := (fge_iff _ _).1 h1
  obtain ⟨-, htop, hhi⟩ := (fle_iff _ _).1 h2
  rw [clampDelay, fminSel_eq_left ((flt_eq_false_iff htop hd).2 hhi)]
  cases h : flt ONE d
  · have hle := (flt_eq_false_iff hone hd).1 h
    rw [fmaxSel_eq_left h]
    exact eq_of_units (le_antisymm hlo hle) (by decide)
  · rw [fmaxSel, if_pos h]

/-- The range is not empty: its top `N_MOD - 2` is at least 2. -/
theorem flt_one_maxDelay {k : Nat} (hk2 : 2 ≤ k) (hk : k ≤ 24) : flt ONE (maxDelay k) = true := by
  obtain ⟨hf, htop⟩ := maxDelay_spec hk
  have h4 : 2 ^ 2 ≤ 2 ^ k := Nat.pow_le_pow_right (by decide) hk2
  refine (flt_iff _ _).2 ⟨by decide, isNaN_of_finite hf, ?_⟩
  rw [units_ONE, htop]
  omega

/-- A delay above the range becomes `N_MOD - 2`. -/
theorem clampDelay_of_gt {k : Nat} (hk2 : 2 ≤ k) (hk : k ≤ 24) {d : Word} (h : fgt d (maxDelay k) = true) :
    clampDelay k d = maxDelay k := by
  rw [fgt] at h
  rw [clampDelay, fminSel, if_pos h, fmaxSel, if_pos (flt_one_maxDelay hk2 hk)]

/-- A delay below the range becomes 1. -/
theorem clampDelay_of_lt {k : Nat} (hk2 : 2 ≤ k) (hk : k ≤ 24) {d : Word} (h : flt d ONE = true) :
    clampDelay k d = ONE := by
  obtain ⟨hd, hone, hlt⟩ := (flt_iff _ _).1 h
  obtain ⟨-, htop, hone_top⟩ := (flt_iff _ _).1 (flt_one_maxDelay hk2 hk)
  rw [clampDelay, fminSel_eq_left ((flt_eq_false_iff htop hd).2 (hlt.trans hone_top).le),
    fmaxSel_eq_left ((flt_eq_false_iff hone hd).2 hlt.le)]

theorem clampDelay_of_isZero {k : Nat} (hk2 : 2 ≤ k) (hk : k ≤ 24) {d : Word} (h : isZero d = true) :
    clampDelay k d = ONE := by
  rcases eq_of_isZero h with rfl | rfl <;> exact clampDelay_of_lt hk2 hk (by decide)

/-! ### Interpolation and mix at their ends (R196, R197)

With fraction +0, and with MIX 0 or 1, one of the two products is with the gain 1 and the other with the gain +0:
`interpolate ZERO` of the kept and the dropped sample. -/

theorem mixLaw_zero (wet x : Word) : mixLaw ZERO wet x = interpolate ZERO x wet := fadd_comm _ _

theorem mixLaw_one (wet x : Word) : mixLaw ONE wet x = interpolate ZERO wet x := by
  have hone : fsub ONE ZERO = ONE := by decide
  have hzero : fsub ONE ONE = ZERO := by decide
  rw [mixLaw, interpolate, hone, hzero]

/-- The gain -0 acts on a sample as the gain +0 on the negated sample (R117). -/
theorem fmul_neg_zero_left (x : Word) : fmul NEG_ZERO x = fmul ZERO (fneg x) := by
  have hneg : isNaN NEG_ZERO = false ∧ isInf NEG_ZERO = false ∧ isZero NEG_ZERO = true ∧ magUnits NEG_ZERO = 0 ∧
      signBit NEG_ZERO = true := by decide
  have hpos : isNaN ZERO = false ∧ isInf ZERO = false ∧ isZero ZERO = true ∧ magUnits ZERO = 0 ∧
      signBit ZERO = false := by decide
  simp [fmul, xorSign, hneg, hpos, isNaN_fneg, isInf_fneg, signBit_fneg]

theorem mixLaw_neg_zero (wet x : Word) : mixLaw NEG_ZERO wet x = interpolate ZERO x (fneg wet) := by
  have hone : fsub ONE NEG_ZERO = fsub ONE ZERO := by decide
  rw [mixLaw, fmul_neg_zero_left, hone]
  exact fadd_comm _ _

/-- The dropped sample, if finite, leaves a signed zero, so the sum is the kept one, but for the sign of a zero. -/
theorem interpolate_zero {x y : Word} (hx : isNaN x = false) (hy : isFinite y = true) :
    interpolate ZERO x y = if x = NEG_ZERO ∧ signBit y = false then ZERO else x := by
  have hone : fsub ONE ZERO = ONE := by decide
  have hzero : ∀ b : Bool, isZero (if b then NEG_ZERO else ZERO) = true := by decide
  rw [interpolate, hone, fmul_one_left, hx, fmul_zero_left, hy, if_neg (by decide), if_pos rfl]
  cases h0 : isZero x
  · have hne : x ≠ NEG_ZERO := fun h => by rw [h] at h0; exact absurd h0 (by decide)
    rw [fadd_zero_right hx h0 (hzero _), if_neg fun h => hne h.1]
  · rcases eq_of_isZero h0 with rfl | rfl <;> cases signBit y <;> decide

/-- A dropped sample that is not finite spoils the sum, and so does a NaN kept (R118). -/
theorem interpolate_zero_nan {x y : Word} (h : isNaN x = true ∨ isFinite y = false) : interpolate ZERO x y = NAN := by
  rcases h with hx | hy
  · exact fadd_nan (.inl (by rw [fmul_nan (.inr hx)]; exact isNaN_NAN))
  · exact fadd_nan (.inr (by rw [fmul_zero_left, hy]; exact isNaN_NAN))

theorem interpolate_zero_of_ne {x y : Word} (hx : isNaN x = false) (hy : isFinite y = true)
    (h : ¬(x = NEG_ZERO ∧ signBit y = false)) : interpolate ZERO x y = x := by
  rw [interpolate_zero hx hy, if_neg h]

theorem interpolate_zero_neg_zero {x y : Word} (hx : x = NEG_ZERO) (hy : isFinite y = true) (hs : signBit y = false) :
    interpolate ZERO x y = ZERO := by
  rw [interpolate_zero (by rw [hx]; decide) hy, if_pos ⟨hx, hs⟩]

theorem interpolate_zero_value {x y : Word} (hx : isFinite x = true) (hy : isFinite y = true) :
    isFinite (interpolate ZERO x y) = true ∧ units (interpolate ZERO x y) = units x := by
  rw [interpolate_zero (isNaN_of_finite hx) hy]
  split
  · next h => rw [h.1]; decide
  · exact ⟨hx, rfl⟩

/-- The kept sample does not depend on the dropped one, but for the sign of a zero and whether that is finite. -/
theorem interpolate_zero_fneg (x y : Word) : interpolate ZERO x (fneg y) = interpolate ZERO x y ∨
    (isZero (interpolate ZERO x (fneg y)) = true ∧ isZero (interpolate ZERO x y) = true) := by
  by_cases h : isNaN x = true ∨ isFinite y = false
  · rw [interpolate_zero_nan h, interpolate_zero_nan (by rwa [isFinite_fneg])]
    exact .inl rfl
  · simp only [not_or, Bool.not_eq_true, Bool.not_eq_false] at h
    obtain ⟨hx, hy⟩ := h
    rw [interpolate_zero hx hy, interpolate_zero hx (by rwa [isFinite_fneg])]
    by_cases hneg : x = NEG_ZERO
    · rw [hneg]
      exact .inr ⟨by split <;> decide, by split <;> decide⟩
    · exact .inl (by rw [if_neg fun h => hneg h.1, if_neg fun h => hneg h.1])

/-! ### Depth zero (R199) -/

/-- A sine of a finite phase is finite (R126, S2). -/
theorem isFinite_of_sineProps {f : Word → Word} (hf : SineProps f) {x : Word} (hx : isFinite x = true) :
    isFinite (f x) = true := by
  obtain ⟨hrange, -, -⟩ := hf
  obtain ⟨hnan, hmem⟩ := hrange x hx
  have hmag := (le_one_and_ge_neg_one_iff hnan).1 hmem
  have hone : magField ONE = 0x3F800000 := by decide
  rw [isFinite_iff]
  omega

theorem isZero_fmul_of_isZero {z x : Word} (hz : isZero z = true) (hx : isFinite x = true) :
    isZero (fmul z x) = true := by
  have hmag : magUnits z = 0 := (magUnits_eq_zero z).2 hz
  rw [fmul_finite (isFinite_of_isZero hz) hx, hmag, Nat.zero_mul, roundMag_zero, isZero_iff]
  exact magField_pack _ (by decide)

theorem isZero_fadd {x y : Word} (hx : isZero x = true) (hy : isZero y = true) : isZero (fadd x y) = true := by
  rcases eq_of_isZero hx with rfl | rfl <;> rcases eq_of_isZero hy with rfl | rfl <;> decide

/-- A zero offset does not move the clamped delay: only the sign of a zero base can change, and a zero clamps to 1. -/
theorem clampDelay_fadd_isZero {k : Nat} (hk2 : 2 ≤ k) (hk : k ≤ 24) {base z : Word} (hz : isZero z = true) :
    clampDelay k (fadd base z) = clampDelay k base := by
  cases hnan : isNaN base
  · cases h0 : isZero base
    · rw [fadd_zero_right hnan h0 hz]
    · rw [clampDelay_of_isZero hk2 hk (isZero_fadd h0 hz), clampDelay_of_isZero hk2 hk h0]
  · rw [fadd_nan (.inl hnan), clampDelay_nan k isNaN_NAN, clampDelay_nan k hnan]

/-! ### The obligations -/

/-- Settles O31: MOD.PROC adds two values of `[0, 2π)` and wraps, MOD.INIT gives +0, and no other command writes
PHASE. -/
theorem phaseStaysInTurn : Obligations.PhaseStaysInTurn := by
  refine ⟨fun rate b hrate hrate0 hb => ?_, fun i s t ht hparams hphase hinc => ?_⟩
  · exact fge_zero_phaseIncrement hrate ((fgt_zero_iff _).1 hrate0).2 (u2f_pos hb).1 (u2f_pos hb).2
  · rw [exec_eq_perform, Host.Outcome.next.injEq] at ht
    subst ht
    by_cases hproc : ∃ l x b, i = .modProc l x b
    · obtain ⟨l, x, b, rfl⟩ := hproc
      rcases perform_modProc s l x b with ⟨-, hp⟩ | ⟨hb, hp⟩ <;> rw [hp]
      · exact hphase
      · obtain ⟨⟨hrate, hrate0⟩, -, -⟩ := hparams
        have hpos := fge_zero_phaseIncrement hrate ((fgt_zero_iff _).1 hrate0).2 (u2f_pos hb).1 (u2f_pos hb).2
        exact phaseInTurn_wrapPhase_fadd hphase ⟨hpos, hinc l x b rfl hb⟩
    · by_cases hinit : i = .modInitVibrato ∨ i = .modInitChorus ∨ i = .modInitFlanger
      · have hzero : phaseInTurn ZERO := by decide
        rcases hinit with rfl | rfl | rfl <;> exact hzero
      · simp only [not_or] at hinit
        obtain ⟨hv, hc, hf⟩ := hinit
        obtain ⟨hsame, -⟩ := perform_modState_eq (s := s) hproc hv hc hf
        rw [hsame]
        exact hphase

/-- Settles O29: the clamp case by case. -/
theorem clampBoundsDelay : Obligations.ClampBoundsDelay := by
  rintro k d _ hk2 hk rfl
  obtain ⟨hnan, hlo, hhi⟩ := clampDelay_spec hk2 hk d
  obtain ⟨htop, hunits⟩ := maxDelay_spec hk
  have hone := units_ONE
  exact ⟨hunits, (floorDomain_clampDelay hk2 hk d).finite, (fge_iff _ _).2 ⟨hnan, by decide, hone ▸ hlo⟩,
    (fle_iff _ _).2 ⟨hnan, isNaN_of_finite htop, hhi.trans hunits.ge⟩, clampDelay_of_mem, clampDelay_of_gt hk2 hk,
    clampDelay_of_lt hk2 hk, clampDelay_nan k⟩

/-- Settles O32: with fraction +0 the first tap is kept and the second dropped. -/
theorem interpolationExactAtIntegerDelay : Obligations.InterpolationExactAtIntegerDelay := by
  rintro k mh dly _ _ hfr rfl rfl
  rw [wetSample, hfr]
  exact ⟨interpolate_zero_value, interpolate_zero_of_ne, interpolate_zero_neg_zero,
    fun h => interpolate_zero_nan (.inr h), fun h => interpolate_zero_nan (.inl h)⟩

/-- Settles O33: with MIX 0 the input is kept and the wet sample dropped, with MIX 1 the other way round, and -0 negates
what is dropped. -/
theorem mixLawBoundary : Obligations.MixLawBoundary := by
  simp only [Obligations.MixLawBoundary, mixLaw_zero, mixLaw_one, mixLaw_neg_zero]
  refine ⟨fun wet x hwet => ⟨fun hx => interpolate_zero_of_ne hx hwet, fun hx => interpolate_zero_neg_zero hx hwet⟩,
    fun wet x hwet => interpolate_zero_nan (.inr hwet),
    fun wet x hx => ⟨fun hwet => interpolate_zero_value hwet hx, fun hwet => ?_⟩,
    fun wet x hx => interpolate_zero_nan (.inr hx), by decide, fun wet x => interpolate_zero_fneg x wet⟩
  have hne : wet ≠ NEG_ZERO := fun h => by rw [h] at hwet; exact absurd hwet (by decide)
  exact interpolate_zero_of_ne (isNaN_of_isInf hwet) hx fun h => hne h.1

/-- Settles O34: a zero depth times a finite sine is a zero, which does not move the clamped delay; and the base delay of
Vibrato is then 1. -/
theorem depthZeroIgnoresSine : Obligations.DepthZeroIgnoresSine := by
  intro k u x b sine hk2 hk hb hsine hw hdepth hphase
  have hzero : isZero u.depth = true := by rcases hdepth with h | h <;> rw [h] <;> decide
  have hdelay : u.delayWith sine k (u2f b) = clampDelay k (baseDelay u.variant u.depth (u2f b)) :=
    clampDelay_fadd_isZero hk2 hk (isZero_fmul_of_isZero hzero (isFinite_of_sineProps hsine hphase))
  refine ⟨hdelay, fun hv => ⟨?_, by decide, by decide, RingBuf.get_push_one x (by omega) hw⟩⟩
  have hbase : baseDelay u.variant u.depth (u2f b) = ONE := by
    rw [hv]
    rcases hdepth with h | h <;> rw [h] <;> rfl
  obtain ⟨hone, htop, hlt⟩ := (flt_iff _ _).1 (flt_one_maxDelay hk2 hk)
  rw [hdelay, hbase]
  exact clampDelay_of_mem (by decide) ((fle_iff _ _).2 ⟨hone, htop, hlt.le⟩)

/-- Settles O35: MOD.PROC records on the first call only, and no command but it and MOD.INIT writes the log state. -/
theorem logRecordedAtMostOnce : Obligations.LogRecordedAtMostOnce := by
  intro i s t ht hdone
  rw [exec_eq_perform, Host.Outcome.next.injEq] at ht
  subst ht
  refine ⟨perform_logOf_of_firstDone i hdone, fun hv hc hf => ?_⟩
  by_cases hproc : ∃ l x b, i = .modProc l x b
  · obtain ⟨l, x, b, rfl⟩ := hproc
    rcases perform_modProc s l x b with ⟨-, hp⟩ | ⟨-, hp⟩ <;> rw [hp]
    · exact ⟨hdone, rfl, rfl, rfl⟩
    · simp [ModUnit.process, ModUnit.records_of_firstDone l hdone]
  · obtain ⟨-, hfirst, hlog⟩ := perform_modState_eq (s := s) hproc hv hc hf
    exact ⟨hfirst.trans hdone, hlog⟩

/-- Settles O28: the values of R181 named one by one; the push and the log state by their own laws. -/
theorem modProcEffect : Obligations.ModProcEffect := by
  intro l x b s hb
  obtain ⟨hb0, -⟩ | ⟨-, hp⟩ := perform_modProc s l x b
  · exact absurd hb0 hb
  obtain ⟨hnew, hold, hidx⟩ := s.mod.mh.push_spec x (kMod_le s.build)
  refine ⟨_, _, _, _, baseDelay s.mod.variant s.mod.depth (u2f b), _, _, _, _, _, _, _,
    (exec_eq_perform _ s).trans (congrArg _ hp), rfl, rfl, rfl, fun h => by rw [h]; rfl,
    fun h => by rw [h]; rfl, fun h => by rw [h]; rfl, rfl, rfl, rfl, rfl, rfl, rfl, rfl, ⟨?_, rfl, rfl, rfl⟩,
    hnew, hold, hidx, rfl, rfl, fun hrec => ?_, fun hrec => ?_, rfl, rfl, rfl, rfl, rfl, rfl, rfl⟩
  · rw [State.respond_responses, ModUnit.records_eq_decide]
    rfl
  · have hlog : s.mod.records l = true := by rw [ModUnit.records_eq_decide, decide_eq_true hrec]
    simp [ModUnit.process, hlog, milliseconds]
  · have hlog : s.mod.records l = false := by rw [ModUnit.records_eq_decide, decide_eq_false hrec]
    simp [ModUnit.process, hlog]

/-- Settles O36: MOD.INIT is the construction of the variant with its presets. -/
theorem modInitLoadsPresets : Obligations.ModInitLoadsPresets :=
  fun _ => ⟨rfl, rfl, rfl⟩

end Sys2Proof.Machine
end

section
/-!
PROOFS. The configuration registers (R221 to R228): a write of CSR.WR by its check, refused or stored.
-/

namespace Sys2Proof.Machine

/-! ### A write by its check (R221) -/

theorem exec_csrWr_of_some {s : State} {c : Csr} {v : Word} {e : ErrCode} (h : writeError s c v = some e) :
    exec (.csrWr c v) s = .next (s.raise e) := by
  rw [exec_eq_perform]
  obtain ⟨e', he, hp⟩ | ⟨hnone, -⟩ := perform_csrWr s c v
  · obtain rfl := Option.some.inj (he.symm.trans h)
    rw [hp]
  · cases hnone.symm.trans h

theorem exec_csrWr_of_none {s : State} {c : Csr} {v : Word} (h : writeError s c v = none) :
    exec (.csrWr c v) s = .next ((storeCsr s c v).respond 0 false) := by
  rw [exec_eq_perform]
  obtain ⟨e, he, -⟩ | ⟨-, hp⟩ := perform_csrWr s c v
  · cases he.symm.trans h
  · rw [hp]

/-- A write to a register that takes the finite values not in `OutOfDomain`: whether the value is finite is asked first,
then the domain (R224, R262). The check's `inDomain` has to agree with `OutOfDomain` on finite values only. -/
theorem exec_csrWr_parameter {s : State} {c : Csr} {v : Word} {inDomain : Bool} {OutOfDomain : Prop}
    [Decidable OutOfDomain] (hcheck : writeError s c v = parameterError v inDomain)
    (hdomain : isFinite v = true → (inDomain = true ↔ ¬OutOfDomain)) :
    exec (.csrWr c v) s = .next (
      if isFinite v = false then s.raise .nonfinite
      else if OutOfDomain then s.raise .range
      else (storeCsr s c v).respond 0 false) := by
  split
  · next hv => exact exec_csrWr_of_some (hcheck.trans (parameterError_some.2 (.inl ⟨hv, rfl⟩)))
  next hv =>
  rw [Bool.not_eq_false] at hv
  split
  · next hout =>
    have hfail : inDomain = false := Bool.eq_false_iff.2 fun hin => (hdomain hv).1 hin hout
    exact exec_csrWr_of_some (hcheck.trans (parameterError_some.2 (.inr ⟨hv, hfail, rfl⟩)))
  · next hin => exact exec_csrWr_of_none (hcheck.trans (parameterError_none.2 ⟨hv, (hdomain hv).2 hin⟩))

/-! ### The domains as intervals of values (R225 to R227) -/

theorem fgt_zero_iff_of_finite {v : Word} (hv : isFinite v = true) : fgt v ZERO = true ↔ ¬units v ≤ 0 := by
  rw [fgt_zero_iff, and_iff_right (isNaN_of_finite hv), not_le]

theorem fge_zero_iff_of_finite {v : Word} (hv : isFinite v = true) : fge v ZERO = true ↔ ¬units v < 0 := by
  rw [fge_zero_iff, and_iff_right (isNaN_of_finite hv), not_lt]

/-- 1 is `2^149` units. -/
theorem fge_zero_and_fle_one_iff_of_finite {v : Word} (hv : isFinite v = true) :
    (fge v ZERO && fle v ONE) = true ↔ ¬(units v < 0 ∨ 2 ^ 149 < units v) := by
  have hle : fle v ONE = true ↔ ¬2 ^ 149 < units v := by
    rw [fle_iff, and_iff_right (isNaN_of_finite hv), and_iff_right (by decide), units_ONE, not_lt]
  rw [Bool.and_eq_true, fge_zero_iff_of_finite hv, hle, not_or]

/-! ### The obligations -/

/-- Settles O41: each register's check is the finite test, then its domain. -/
theorem modParametersValidated : Obligations.ModParametersValidated :=
  fun _ _ => ⟨exec_csrWr_parameter rfl fgt_zero_iff_of_finite, exec_csrWr_parameter rfl fge_zero_iff_of_finite,
    exec_csrWr_parameter rfl fge_zero_and_fle_one_iff_of_finite⟩

/-- Settles O40: neither gain has a check. -/
theorem fdlGainsTakeEveryValue : Obligations.FdlGainsTakeEveryValue :=
  fun _ _ => ⟨exec_csrWr_of_none rfl, exec_csrWr_of_none rfl⟩

/-- Settles O42, register by register: the refusal comes before any look at the value (R262). -/
theorem readOnlyCsrsRefuseWrites : Obligations.ReadOnlyCsrsRefuseWrites := by
  intro c v s hc
  have hro : writeError s c v = some .ro := by fin_cases hc <;> rfl
  exact exec_csrWr_of_some hro

end Sys2Proof.Machine
end

section
/-!
PROOFS. Errors (R250 to R266): an illegal word, the precision of an error, the cause of each code, and that every step
completes.
-/

namespace Sys2Proof.Machine

/-! ### A presented word (R83, R87, R253) -/

section
variable {s : State} {w : CmdWord} {rest : List HostEvent}

theorem step_present_of_decode_error {why : Illegal} (h : s.inputs = .present w :: rest) (hd : decode w = .error why) :
    step s = .next ({ s with inputs := rest }.raise .illegal) := by
  simp only [step, State.fetch_present h, hd]

/-- A presented word is performed as a command or ends with E_ILLEGAL, with the event taken off. -/
theorem step_present_cases (h : s.inputs = .present w :: rest) :
    (∃ i, step s = .next (perform { s with inputs := rest } i)) ∨
    step s = .next ({ s with inputs := rest }.raise .illegal) := by
  match hd : decode w with
  | .ok i => exact .inl ⟨i, by rw [step_present_of_decode h hd, exec_eq_perform]⟩
  | .error why => exact .inr (step_present_of_decode_error h hd)

end

/-! ### Every step completes (R266) -/

theorem exists_step_eq_next (s : State) : ∃ t, step s = .next t := by
  rcases step_cases s with ⟨-, h⟩ | ⟨rest, -, h⟩ | ⟨rest, -, h⟩ | ⟨w, rest, i, -, -, h⟩ | ⟨w, rest, why, -, -, h⟩ <;>
    exact ⟨_, h⟩

/-- Every command forms one response and leaves the host's coming events alone (R83). -/
theorem exists_perform_response (s : State) (i : Instr) :
    ∃ r, (perform s i).responses = s.responses ++ [r] ∧ (perform s i).inputs = s.inputs := by
  rcases perform_answered s i with ⟨e, hrsp, -, hin, -⟩ | ⟨l, d, ⟨hrsp, -, hin, -⟩, -⟩ <;> exact ⟨_, hrsp, hin⟩

/-! ### An error is `State.raise` and nothing else (R252) -/

/-- A command whose response carries a code did nothing but raise an error. -/
theorem exists_perform_eq_raise {s : State} {i : Instr} {r : RspWord}
    (hrsp : (perform s i).responses = s.responses ++ [r]) (herr : errOf r ≠ 0) : ∃ e, perform s i = s.raise e := by
  obtain hraise | ⟨t, d, l, hp, -⟩ := perform_cases s i
  · exact hraise
  · rw [hp, State.respond_responses] at hrsp
    obtain ⟨-, ⟨⟩⟩ := List.append_inj' hrsp rfl
    obtain ⟨hcode, -⟩ := responseWord_fields 0 l d
    exact absurd hcode herr

/-- A step on a presented word whose response carries a code did nothing but take the event off and raise an error. -/
theorem exists_eq_raise_of_step_present {s t : State} {w : CmdWord} {rest : List HostEvent} {r : RspWord}
    (hin : s.inputs = .present w :: rest) (hstep : step s = .next t) (hrsp : t.responses = s.responses ++ [r])
    (herr : errOf r ≠ 0) : ∃ e, t = { s with inputs := rest }.raise e := by
  rcases step_present_cases hin with ⟨i, hs⟩ | hs <;> rw [hs, Host.Outcome.next.injEq] at hstep <;> subst hstep
  · exact exists_perform_eq_raise (s := { s with inputs := rest }) hrsp herr
  · exact ⟨.illegal, rfl⟩

/-! ### The cause of each code (R250) -/

theorem ErrFlags.eq_of_get_set {f : ErrFlags} {e e' : ErrCode} (hclear : f.get e = false)
    (hset : (f.set e').get e = true) : e = e' := by
  by_contra hne
  rw [ErrFlags.get_set_of_ne f hne, hclear] at hset
  exact Bool.false_ne_true hset

/-- The three commands that can raise an error, each with its check (R163, R182, R221). -/
theorem raise_causes {s : State} {i : Instr} {e : ErrCode} (hclear : s.err.get e = false)
    (hset : (perform s i).err.get e = true) :
    (∃ d, i = .fdlInit d ∧ delayError s d = some e) ∨ (e = .srate ∧ ∃ l x, i = .modProc l x 0) ∨
      ∃ c v, i = .csrWr c v ∧ writeError s c v = some e := by
  have hunset : s.err.get e ≠ true := Bool.eq_false_iff.1 hclear
  cases i with
  | fdlInit d =>
    rcases perform_fdlInit s d with ⟨e', hcheck, hp⟩ | ⟨-, hp⟩ <;> rw [hp] at hset
    · exact .inl ⟨d, rfl, ErrFlags.eq_of_get_set hclear hset ▸ hcheck⟩
    · exact absurd hset hunset
  | modProc l x b =>
    rcases perform_modProc s l x b with ⟨rfl, hp⟩ | ⟨-, hp⟩ <;> rw [hp] at hset
    · exact .inr (.inl ⟨ErrFlags.eq_of_get_set hclear hset, l, x, rfl⟩)
    · exact absurd hset hunset
  | csrWr c v =>
    rcases perform_csrWr s c v with ⟨e', hcheck, hp⟩ | ⟨-, hp⟩ <;> rw [hp] at hset
    · exact .inr (.inr ⟨c, v, rfl, ErrFlags.eq_of_get_set hclear hset ▸ hcheck⟩)
    · rw [State.respond_err, storeCsr_err] at hset
      exact absurd hset hunset
  | _ => exact absurd hset hunset

/-- Why CSR.WR refuses a value: the delay length, a MOD parameter, or a read-only register (R222 to R228). -/
theorem writeError_causes {s : State} {c : Csr} {v : Word} {e : ErrCode} (h : writeError s c v = some e) :
    (c = .fdlDelay ∧ 2 ^ s.build.kFdl.val ≤ v.toNat ∧ e = .delay) ∨
    (c ∈ [Csr.modRate, .modDepth, .modMix] ∧
      (isFinite v = false ∧ e = .nonfinite ∨ isFinite v = true ∧ e = .range)) ∨
    (c ∉ [Csr.fdlDelay, .fdlWet, .fdlFb, .modRate, .modDepth, .modMix] ∧ e = .ro) := by
  have hparameter : ∀ {inDomain}, parameterError v inDomain = some e →
      isFinite v = false ∧ e = .nonfinite ∨ isFinite v = true ∧ e = .range := fun hp =>
    (parameterError_some.1 hp).imp_right fun ⟨hfin, _, he⟩ => ⟨hfin, he⟩
  cases c with
  | fdlDelay => exact .inl ⟨rfl, delayError_some.1 h⟩
  | fdlWet | fdlFb => cases h
  | modRate | modDepth | modMix => exact .inr (.inl ⟨by decide, hparameter h⟩)
  | _ => exact .inr (.inr ⟨by decide, (Option.some.inj h).symm⟩)

/-! ### The obligations -/

/-- Settles O43: a response with a code comes from `State.raise` alone, whose frame is the statement. -/
theorem errorsArePrecise : Obligations.ErrorsArePrecise := by
  intro s t w rest r hin hstep hrsp herr
  obtain ⟨e, rfl⟩ := exists_eq_raise_of_step_present hin hstep hrsp herr
  obtain ⟨-, ⟨⟩⟩ := List.append_inj' hrsp rfl
  obtain ⟨hcode, -⟩ := responseWord_fields e.code false 0
  have hnat : (responseWord e.code false 0).toNat = e.code.toNat * 2 ^ 36 := by simp [toNat_responseWord, flagBit]
  exact ⟨e, hcode, hnat, ErrFlags.get_set_same s.err e,
    fun e' hne => ErrFlags.get_set_of_ne s.err hne, rfl, rfl, rfl, rfl, rfl, rfl⟩

/-- Settles O7: a word no row accepts does not decode (R85), so its step is `State.raise`. -/
theorem illegalWordEndsWithIllegalError : Obligations.IllegalWordEndsWithIllegalError := by
  intro s w rest hin hrows
  obtain ⟨-, -, hillegal⟩ := wordSpellsCommandIffItMatchesRow
  obtain ⟨why, hd⟩ := (hillegal w).1 hrows
  exact step_present_of_decode_error hin hd

/-- Settles O45, by the three commands that raise errors and, for CSR.WR, by the register. -/
theorem errorCodesRaisedByTheirCommands : Obligations.ErrorCodesRaisedByTheirCommands := by
  intro i s t e ht hclear hset
  rw [exec_eq_perform, Host.Outcome.next.injEq] at ht
  subst ht
  rcases raise_causes hclear hset with ⟨d, rfl, hcheck⟩ | ⟨rfl, l, x, rfl⟩ | ⟨c, v, rfl, hcheck⟩
  · obtain ⟨hd, rfl⟩ := delayError_some.1 hcheck
    exact ⟨d, hd, .inl rfl⟩
  · exact ⟨l, x, rfl⟩
  · rcases writeError_causes hcheck with ⟨rfl, hv, rfl⟩ | ⟨hc, ⟨hv, rfl⟩ | ⟨hv, rfl⟩⟩ | ⟨hc, rfl⟩
    · exact ⟨v, hv, .inr rfl⟩
    · exact ⟨c, v, hc, rfl, hv⟩
    · exact ⟨c, v, hc, rfl, hv⟩
    · exact ⟨c, v, hc, rfl⟩

/-- Settles O10: no step stops, and both ends of a presented word, a command or E_ILLEGAL, form one response. -/
theorem everyStepCompletes : Obligations.EveryStepCompletes := by
  intro s
  obtain ⟨t, ht⟩ := exists_step_eq_next s
  refine ⟨t, ht, fun w rest hin => ?_⟩
  rcases step_present_cases hin with ⟨i, hs⟩ | hs <;> rw [hs, Host.Outcome.next.injEq] at ht <;> subst ht
  · exact exists_perform_response { s with inputs := rest } i
  · exact ⟨_, rfl, rfl⟩

/-- Settles O27: the check of the rate comes before the push (R182). -/
theorem modProcRefusesZeroRate : Obligations.ModProcRefusesZeroRate := by
  intro l x s
  obtain ⟨-, hp⟩ | ⟨hb, -⟩ := perform_modProc s l x 0
  · rw [exec_eq_perform, hp]
    rfl
  · exact absurd rfl hb

end Sys2Proof.Machine
end

section
/-!
PROOFS. The reset values of a unit (R43, R292): RB.INIT, FDL.INIT and MOD.INIT construct one unit as reset does, and
right after reset they only add their responses.
-/

namespace Sys2Proof.Machine

/-! ### A unit constructed is the unit of the reset state with its operand (R43, R144, R163, R202) -/

section
variable (b : Build)

theorem RingBuf.zeroFilled_eq_resetOf : RingBuf.zeroFilled = (State.resetOf b).rb := rfl

theorem fdlConstruct_eq_resetOf (d : Word) : fdlConstruct d = { (State.resetOf b).fdl with delay := d } := rfl

theorem modConstruct_eq_resetOf (v : Variant) :
    modConstruct v = { (State.resetOf b).mod with
      variant := v, rate := presetRate v, depth := presetDepth v, mix := presetMix v } := rfl

end

/-- The response with no error, no log bit and no data is the zero word (R82). -/
theorem State.respond_zero (s : State) :
    s.respond 0 false = { s with responses := s.responses ++ [0x0000000000] } := rfl

/-- A MOD.INIT gives MOD its reset values, then the variant with its presets (R202, R292). -/
theorem modInit_eq_resetOf (v : Variant) (s : State) (b : Build) :
    modInit v s = { s with
      mod := { (State.resetOf b).mod with
        variant := v, rate := presetRate v, depth := presetDepth v, mix := presetMix v }
      responses := s.responses ++ [0x0000000000] } := by
  rw [modInit, modConstruct_eq_resetOf b, State.respond_zero]
  rfl

/-- An INIT with the operand of the reset state finds its unit as it would make it: only its response is new (R292). -/
theorem perform_init_resetOf {i : Instr} (hi : i ∈ [.rbInit, .fdlInit 0, .modInitVibrato]) (b : Build)
    (rs : List RspWord) :
    perform { State.resetOf b with responses := rs } i =
      { State.resetOf b with responses := rs ++ [0x0000000000] } := by
  obtain rfl | rfl | rfl : i = .rbInit ∨ i = .fdlInit 0 ∨ i = .modInitVibrato := by simpa using hi
  · rw [perform_rbInit, RingBuf.zeroFilled_eq_resetOf b]
    rfl
  · rw [perform_fdlInit_of_lt (Nat.two_pow_pos _), fdlConstruct_eq_resetOf b]
    rfl
  · rw [perform_modInitVibrato, modInit_eq_resetOf .vibrato _ b]
    rfl

/-! ### The obligation -/

/-- Settles O50: each command by its construction, and the three after reset one by one. -/
theorem initsReconstructOneUnit : Obligations.InitsReconstructOneUnit := by
  refine ⟨fun s b => ?rb, fun s b d hd => ?fdl, fun s b => ⟨?vibrato, ?chorus, ?flanger⟩, fun b => ?afterReset⟩
  case rb =>
    rw [exec_eq_perform, perform_rbInit, RingBuf.zeroFilled_eq_resetOf b, State.respond_zero]
    rfl
  case fdl =>
    rw [exec_eq_perform, perform_fdlInit_of_lt hd, fdlConstruct_eq_resetOf b, State.respond_zero]
    rfl
  case vibrato => exact (exec_eq_perform _ s).trans (congrArg _ (modInit_eq_resetOf .vibrato s b))
  case chorus => exact (exec_eq_perform _ s).trans (congrArg _ (modInit_eq_resetOf .chorus s b))
  case flanger => exact (exec_eq_perform _ s).trans (congrArg _ (modInit_eq_resetOf .flanger s b))
  case afterReset =>
    calc performAll (State.resetOf b) [.rbInit, .fdlInit 0, .modInitVibrato]
      _ = perform (perform (perform { State.resetOf b with responses := [] } .rbInit) (.fdlInit 0))
            .modInitVibrato := rfl
      _ = { State.resetOf b with responses := [] ++ [0] ++ [0] ++ [0] } := by
          rw [perform_init_resetOf (by simp), perform_init_resetOf (by simp), perform_init_resetOf (by simp)]

end Sys2Proof.Machine
end
